-- ==== Sys2Proof/Word.lean ====
section
/-! DEFINITION. The word types: the 8-bit digit, the 64-bit port word, the 8-bit character, a Value, a text line. -/

namespace Sys2Proof

/-- A digit: "one 8-bit unit of a Value's byte sequence" (00_scope.md R5 DIGIT_BITS = 8, R11). -/
abbrev Digit := BitVec 8

/-- A 64-bit word of the binary command port, and a 64-bit scalar, exponent or literal
(30_encoding.md R61, 00_scope.md R5 SCALAR_BITS = 64). -/
abbrev Word := BitVec 64

/-- A character, as its 8-bit code (30_encoding.md R63, 40_canonicalization.md R85). -/
abbrev Char8 := BitVec 8

/-- A line of text. A line of OUT holds its NEWLINE character; a line of text input does not. -/
abbrev Line := List Char8

/-- A Value: a list of digits, most significant first (00_scope.md R7). That it is non-empty is
part of the invariant of the machine (`Machine.State.Inv`). -/
abbrev Value := List Digit

end Sys2Proof
end

