-- ==== Sys2Proof/Config.lean ====
section
/-! DEFINITION. The implementation parameters of 00_scope.md R5, and the opaque constant that stands
for the values one implementation gives them. -/

namespace Sys2Proof

/-- What POW computes for exponents 2 and above (00_scope.md R5, 45_power.md R135). -/
inductive PowMode where
  | binary
  | squareOnly
  deriving DecidableEq, Repr, Inhabited

/-- Which register MUL_UINT64 reads its multiplicand from (00_scope.md R5, 44_multiply.md R123). -/
inductive SmulSource where
  | src
  | dst
  deriving DecidableEq, Repr, Inhabited

/-- The parameters of 00_scope.md R5, each within the bounds R5 gives it by its type:
`0 ≤ N_MAX ≤ 65536` and `9 ≤ L_MAX ≤ 2^32` (`lMaxOver9` is L_MAX − 9). -/
structure Params where
  nMax : Fin 65537
  lMaxOver9 : Fin 4294967288
  powMode : PowMode
  smulSource : SmulSource
  smulCanon : Bool
  hexCanon : Bool
  deriving DecidableEq, Repr, Inhabited

/-- L_MAX, the largest number of digits a register may hold (00_scope.md R5). -/
def Params.lMax (p : Params) : Nat := p.lMaxOver9.val + 9

/-- The parameters of the implementation at hand. DESIGN CHOICE (log entry 1): the spec leaves them
OPEN, so nothing is known of this constant but the bounds its type gives. -/
opaque Config.params : Params

end Sys2Proof
end

