-- ==== Sys2Proof/Syntax.lean ====
section
/-! DEFINITION. The commands of the core, one constructor per row of spec/opcode_table.json. -/

namespace Sys2Proof

/-- A command record (30_encoding.md R55). Register operands are integers, since the text interface
can deliver negative ones; `k` and `v` are 64-bit; `n` is an unsigned integer of any size; `s` is a
finite string of characters. -/
inductive Instr where
  /-- CNT `n` (46_control.md R148). -/
  | cnt (n : Nat)
  /-- UINT64 `v` (41_construction.md R90). -/
  | uint64 (v : Word)
  /-- HEX_STRING `s` (41_construction.md R91). -/
  | hexString (s : List Char8)
  /-- CLONE `j` (41_construction.md R92). -/
  | clone (j : Int)
  /-- SHL `rd, rs1, k` (42_shift.md R100). -/
  | shl (rd rs1 : Int) (k : Word)
  /-- ADD `rd, rs1, rs2` (43_add.md R110). -/
  | add (rd rs1 rs2 : Int)
  /-- MUL_UINT64 `rd, rs1, k` (44_multiply.md R120). -/
  | mulUint64 (rd rs1 : Int) (k : Word)
  /-- MUL `rd, rs1, rs2` (44_multiply.md R125). -/
  | mul (rd rs1 rs2 : Int)
  /-- POW `rd, rs1, k` (45_power.md R135). -/
  | pow (rd rs1 : Int) (k : Word)
  /-- DUMP (46_control.md R151). -/
  | dump
  /-- END (46_control.md R152). -/
  | endSession
  deriving DecidableEq, Repr

end Sys2Proof
end

