-- ==== Sys2Proof/Machine/Event.lean ====
section
/-! DEFINITION. What the host sends to the core: the events of 30_encoding.md R56, and the forms in
which the model holds what the host has delivered and the core has not consumed. -/

namespace Sys2Proof

/-- A host event (30_encoding.md R56). -/
inductive Event where
  /-- A command record. -/
  | cmd (i : Instr)
  /-- A command whose opcode names no command, or a header with a must-be-zero field not zero. -/
  | unrecognized
  /-- A recognized opcode whose argument line does not parse, or a count line that is no count. -/
  | malformed
  /-- Input ended inside a command. -/
  | truncated
  /-- Input ended at a command boundary. -/
  | eoi
  deriving DecidableEq, Repr

end Sys2Proof

namespace Sys2Proof.Machine

/-- One delivery of the host (46_control.md R146). DESIGN CHOICE (log entries 2 and 3): the spec keeps
the command stream on the host's side; the model holds what has been delivered as plain data. -/
inductive Delivery where
  /-- One event, as any front end delivers it (30_encoding.md R56). -/
  | event (ev : Event)
  /-- Words of the binary command port (30_encoding.md R61). Where the words end inside a command,
  the input has ended there (R67); `port []` is the end of input at a command boundary. -/
  | port (words : List Word)
  /-- Lines of the text protocol without their terminators (30_encoding.md R57). Where they end
  inside a command, the input has ended there; `text []` is the end of input at a command boundary. -/
  | text (lines : List Line)
  /-- The host asserts reset (46_control.md R146, 70_reset_and_hazards.md R185). -/
  | reset
  deriving DecidableEq, Repr

end Sys2Proof.Machine
end

