-- ==== Sys2Proof/Machine/State.lean ====
section
/-! DEFINITION. The state of the core as plain data (10_state.md R20 to R30), the error kinds, the
reasons a step can stop, and the state after reset (10_state.md R32, 70_reset_and_hazards.md R185). -/

namespace Sys2Proof.Machine

/-- SEQ, the sequencer state (10_state.md R21). -/
inductive Seq where
  | awaitingCount
  | initializing
  | executing
  | terminated
  deriving DecidableEq, Repr

/-- The error kinds (60_exceptions.md R165). An error is no fault of the model: taking it is a next state
(60_exceptions.md R170). -/
inductive ErrorKind where
  | malformedCount
  | unknownInitializer
  | unknownOperation
  | truncatedInput
  | invalidHexDigits
  | indexOutOfRange
  | uninitializedRegister
  | capacityExceeded
  | malformedArgument
  deriving DecidableEq, Repr

/-- The state of the machine. `seq` to `out` are the architectural state of 10_state.md R20; STATUS is
the word `State.statusWord` makes of `seq`, `fail` and `err`. `cfg` and `inbox` are the model's own
(log entries 1 and 2). -/
structure State where
  /-- The implementation parameters (00_scope.md R5); no step changes them. -/
  cfg : Params
  /-- SEQ (10_state.md R21). -/
  seq : Seq
  /-- FAIL (10_state.md R29). -/
  fail : Bool
  /-- ERR, the error code (10_state.md R29, 60_exceptions.md R165). -/
  err : BitVec 4
  /-- NREG, the register count N (10_state.md R30). -/
  nreg : BitVec 32
  /-- IPTR, the next slot to initialize (10_state.md R30). -/
  iptr : BitVec 32
  /-- The register file `x[0..N-1]`; `none` is Uninit (10_state.md R22). -/
  regs : List (Option Value)
  /-- OUT, the lines DUMP has appended, oldest first, each with its NEWLINE (20_memory.md R45). -/
  out : List Line
  /-- What the host has delivered and the core has not consumed, oldest first (46_control.md R145). -/
  inbox : List Delivery
  deriving DecidableEq, Repr

/-- The faults of the machine: there is none. The spec gives every event an effect in every state
(46_control.md R147, 60_exceptions.md R165, R170), so no step stops. -/
inductive Fault : Type
  deriving DecidableEq, Repr

/-- The refusals of the machine. -/
inductive Refusal where
  /-- An instruction without a meaning yet, by its mnemonic: raised by an arm of `exec` only, and no arm
  raises it now. Safe: the step stops. -/
  | notModelled (mnemonic : String)
  deriving DecidableEq, Repr

/-- The reset state of an implementation with the parameters `p` (10_state.md R32,
70_reset_and_hazards.md R185). -/
def State.resetWith (p : Params) : State where
  cfg := p
  seq := .awaitingCount
  fail := false
  err := 0#4
  nreg := 0#32
  iptr := 0#32
  regs := []
  out := []
  inbox := []

/-- The machine right after reset, nothing delivered yet (10_state.md R32, 70_reset_and_hazards.md R185). -/
def State.reset : State := State.resetWith Config.params

end Sys2Proof.Machine
end

