-- ==== Sys2Proof/Machine/Flags.lean ====
section
/-! DEFINITION. The STATUS register and what the host sees. The core has no flags or condition codes
(10_state.md R28); its status is STATUS, NREG and IPTR (R29, R30). -/

namespace Sys2Proof.Machine

/-- The code of an error kind in STATUS.ERR (60_exceptions.md R165). -/
def ErrorKind.code : ErrorKind → BitVec 4
  | .malformedCount => 1#4
  | .unknownInitializer => 2#4
  | .unknownOperation => 3#4
  | .truncatedInput => 4#4
  | .invalidHexDigits => 5#4
  | .indexOutOfRange => 6#4
  | .uninitializedRegister => 7#4
  | .capacityExceeded => 8#4
  | .malformedArgument => 9#4

/-- The value of the SEQ field of STATUS (10_state.md R29). -/
def Seq.code : Seq → BitVec 2
  | .awaitingCount => 0#2
  | .initializing => 1#2
  | .executing => 2#2
  | .terminated => 3#2

/-- STATUS: SEQ in bits 1:0, FAIL in bit 2, ERR in bits 7:4, all other bits 0 (10_state.md R29). -/
def State.statusWord (s : State) : BitVec 32 :=
  0#24 ++ s.err ++ 0#1 ++ BitVec.ofBool s.fail ++ s.seq.code

/-- The register count N as a number (10_state.md R22, R30). -/
def State.count (s : State) : Nat := s.nreg.toNat

/-- What the host observes between commands: STATUS, NREG, IPTR and OUT, and nothing else (20_memory.md
R51, 46_control.md R146, R156). -/
structure HostView where
  status : BitVec 32
  nreg : BitVec 32
  iptr : BitVec 32
  out : List Line
  deriving DecidableEq, Repr

/-- The host's view of a state (20_memory.md R51). -/
def State.hostView (s : State) : HostView where
  status := s.statusWord
  nreg := s.nreg
  iptr := s.iptr
  out := s.out

end Sys2Proof.Machine
end

