-- ==== Sys2Proof/Machine/Value.lean ====
section
/-! DEFINITION. Values: the number a Value denotes and the list primitives (00_scope.md R7, R8), the
canonicalization unit and the print form (40_canonicalization.md R80, R84), hexadecimal digits. -/

namespace Sys2Proof

/-- The number a Value denotes: `Σ v_i · 256^(n-1-i)` (00_scope.md R7). -/
def Value.val : Value → Nat
  | [] => 0
  | d :: ds => d.toNat * 256 ^ ds.length + Value.val ds

/-- The `n`-digit Value of `x mod 256^n`, leading digits zero as needed: `rep_n(x)` of 00_scope.md R8
where `x < 256^n`. -/
def rep : Nat → Nat → Value
  | 0, _ => []
  | n + 1, x => BitVec.ofNat 8 (x / 256 ^ n) :: rep n x

/-- The shortest Value with value `x`, `[0x00]` for 0 (00_scope.md R8). -/
def minrep (x : Nat) : Value := rep (x.log2 / 8 + 1) x

/-- `m` zero digits (00_scope.md R8). -/
def zeros (m : Nat) : Value := List.replicate m 0#8

/-- The leading-zero count: zero digits from the most significant end, stopping one digit short of the
end (40_canonicalization.md R80). -/
def lzc : Value → Nat
  | [] => 0
  | [_] => 0
  | d :: e :: ds => if d = 0#8 then lzc (e :: ds) + 1 else 0

/-- The canonicalization unit: the last `n − lzc(v)` digits of `v` (40_canonicalization.md R80). -/
def canon (v : Value) : Value := v.drop (lzc v)

/-- The digit of weight `256^t`, 0 above the most significant one (43_add.md R110, `lo(v, t)`). -/
def lo (v : Value) (t : Nat) : Nat :=
  if t < v.length then (v.getD (v.length - 1 - t) 0#8).toNat else 0

/-- `HEXCHAR(h)`, the lower-case hexadecimal character of `h < 16` (40_canonicalization.md R84, R85). -/
def hexChar (h : Nat) : Char8 :=
  if h < 10 then BitVec.ofNat 8 (0x30 + h) else BitVec.ofNat 8 (0x61 + (h - 10))

/-- `hex2(d)`: two characters, high nibble first (40_canonicalization.md R84). -/
def hex2 (d : Digit) : List Char8 := [hexChar (d.toNat / 16), hexChar (d.toNat % 16)]

/-- NEWLINE, the line-feed character (40_canonicalization.md R85). -/
def newline : Char8 := 0x0A#8

/-- The canonical hexadecimal text line of a Value: `0x`, two characters for each digit of the trimmed
Value, NEWLINE (40_canonicalization.md R84). -/
def textOf (v : Value) : Line := [0x30#8, 0x78#8] ++ (canon v).flatMap hex2 ++ [newline]

/-- The character is one of `0-9`, `a-f`, `A-F` (41_construction.md R91). -/
def isHexDigit (c : Char8) : Bool :=
  (decide (0x30 ≤ c.toNat) && decide (c.toNat ≤ 0x39)) ||
  (decide (0x61 ≤ c.toNat) && decide (c.toNat ≤ 0x66)) ||
  (decide (0x41 ≤ c.toNat) && decide (c.toNat ≤ 0x46))

/-- `hexval`: the value of a hexadecimal digit, either case (41_construction.md R91). -/
def hexVal (c : Char8) : Nat :=
  if c.toNat ≤ 0x39 then c.toNat - 0x30
  else if 0x61 ≤ c.toNat then c.toNat - 0x61 + 10
  else c.toNat - 0x41 + 10

end Sys2Proof
end

