-- ==== Sys2Proof/Machine/Ops.lean ====
section
/-! DEFINITION. The shared operations: taking an error, reading and writing slots and OUT, and the state
and class check that stands before every command. -/

namespace Sys2Proof.Machine

/-- The outcome type of this machine. -/
abbrev Result := Host.Outcome State Fault Refusal

/-- Taking an error: the session ends with the error's code and nothing else is written (60_exceptions.md
R170). There is no return from it (R173); only reset starts a new session. -/
def State.raise (k : ErrorKind) (s : State) : State :=
  { s with seq := .terminated, fail := true, err := k.code }

/-- What slot `i` holds; `none` for an Uninit slot and for one the register file does not have. -/
def State.slot (s : State) (i : Nat) : Option Value := (s.regs[i]?).join

/-- `x[i] <- v`: the slot's Value is replaced wholesale (00_scope.md R9, 10_state.md R25). -/
def State.writeSlot (s : State) (i : Nat) (v : Value) : State :=
  { s with regs := s.regs.set i (some v) }

/-- `emit`: text lines are appended to OUT (00_scope.md R9, 20_memory.md R45). -/
def State.emit (s : State) (ls : List Line) : State := { s with out := s.out ++ ls }

/-- Advance after an initializer (46_control.md R149). -/
def State.advance (s : State) : State :=
  { s with
    iptr := s.iptr + 1#32
    seq := if s.iptr + 1#32 = s.nreg then .executing else s.seq }

/-- An initializer stores its Value in slot IPTR and the sequencer advances (41_construction.md R90 to
R92, 46_control.md R149). -/
def State.initSlot (s : State) (v : Value) : State := (s.writeSlot s.iptr.toNat v).advance

/-- The capacity check on a Value to be stored: more than L_MAX digits raise CapacityExceeded
(10_state.md R23, 60_exceptions.md R165). -/
def State.checkCapacity (s : State) (v : Value) : Except ErrorKind Unit :=
  if s.cfg.lMax < v.length then .error .capacityExceeded else .ok ()

/-- How a command's body ends: with the state it made, or with an error, taken from the state before the
command, so that a failing command writes nothing (60_exceptions.md R170). -/
def attempt (s : State) : Except ErrorKind State → Result
  | .ok t => .next t
  | .error k => .next (s.raise k)

/-- The state and class check for CNT, then its body (46_control.md R147). After TERMINATED nothing
changes (R153). -/
def asCount (s : State) (body : Except ErrorKind State) : Result :=
  match s.seq with
  | .awaitingCount => attempt s body
  | .initializing => .next (s.raise .unknownInitializer)
  | .executing => .next (s.raise .unknownOperation)
  | .terminated => .next s

/-- The state and class check for an initializer, then its body (46_control.md R147). -/
def asInitializer (s : State) (body : Except ErrorKind State) : Result :=
  match s.seq with
  | .awaitingCount => .next (s.raise .malformedCount)
  | .initializing => attempt s body
  | .executing => .next (s.raise .unknownOperation)
  | .terminated => .next s

/-- The state and class check for an operation, then its body (46_control.md R147). -/
def asOperation (s : State) (body : Except ErrorKind State) : Result :=
  match s.seq with
  | .awaitingCount => .next (s.raise .malformedCount)
  | .initializing => .next (s.raise .unknownInitializer)
  | .executing => attempt s body
  | .terminated => .next s

/-- The sequencer on Unrecognized (46_control.md R147). -/
def onUnrecognized (s : State) : State :=
  match s.seq with
  | .awaitingCount => s.raise .malformedCount
  | .initializing => s.raise .unknownInitializer
  | .executing => s.raise .unknownOperation
  | .terminated => s

/-- The sequencer on Malformed (46_control.md R147). -/
def onMalformed (s : State) : State :=
  match s.seq with
  | .awaitingCount => s.raise .malformedCount
  | .initializing | .executing => s.raise .malformedArgument
  | .terminated => s

/-- The sequencer on Truncated (46_control.md R147). -/
def onTruncated (s : State) : State :=
  match s.seq with
  | .awaitingCount => s.raise .malformedCount
  | .initializing | .executing => s.raise .truncatedInput
  | .terminated => s

/-- The sequencer on EOI (46_control.md R147). -/
def onEndOfInput (s : State) : State :=
  match s.seq with
  | .awaitingCount => s.raise .malformedCount
  | .initializing | .executing => s.raise .truncatedInput
  | .terminated => s

/-- Reset asserted by the host: every piece of state takes its reset value; the parameters are the
implementation's, and what the host has still to deliver is the host's (70_reset_and_hazards.md R185). -/
def State.hostReset (s : State) : State := { State.resetWith s.cfg with inbox := s.inbox }

end Sys2Proof.Machine
end

