-- ==== Sys2Proof/Machine/Operands.lean ====
section
/-! DEFINITION. The operand forms of the commands: slot indices and the Values they name. -/

namespace Sys2Proof.Machine

/-- The index range check: `i < 0` or `i ≥ N` raises IndexOutOfRange (60_exceptions.md R168). -/
def State.checkIndex (s : State) (i : Int) : Except ErrorKind Nat :=
  if i < 0 ∨ (s.count : Int) ≤ i then .error .indexOutOfRange else .ok i.toNat

/-- `x[i]`, a read of an in-range slot: an Uninit slot raises UninitializedRegister (00_scope.md R9,
10_state.md R32). DEDUCED (log entry 7) for every command but CLONE, which R93 says is the only one that
can meet an Uninit slot. -/
def State.readSlot (s : State) (i : Nat) : Except ErrorKind Value :=
  match s.slot i with
  | some v => .ok v
  | none => .error .uninitializedRegister

/-- The end of an operation: the capacity check, then `x[rd] <- r` (60_exceptions.md R171, 10_state.md R23). -/
def State.storeResult (s : State) (rd : Nat) (r : Value) : Except ErrorKind State := do
  s.checkCapacity r
  return s.writeSlot rd r

/-- An operation on one source: `rd`, `rs1` are range-checked in that order, the source read in full, the
result computed and stored (60_exceptions.md R168, R171; 00_scope.md R10). -/
def State.operate1 (s : State) (rd rs1 : Int) (f : Value → Value) : Except ErrorKind State := do
  let d ← s.checkIndex rd
  let i ← s.checkIndex rs1
  let a ← s.readSlot i
  s.storeResult d (f a)

/-- An operation on two sources: `rd`, `rs1`, `rs2` are range-checked in that order, both sources read in
full, the result computed and stored (60_exceptions.md R168, R171; 00_scope.md R10). -/
def State.operate2 (s : State) (rd rs1 rs2 : Int) (f : Value → Value → Value) :
    Except ErrorKind State := do
  let d ← s.checkIndex rd
  let i ← s.checkIndex rs1
  let j ← s.checkIndex rs2
  let a ← s.readSlot i
  let b ← s.readSlot j
  s.storeResult d (f a b)

end Sys2Proof.Machine
end

