-- ==== Sys2Proof/Machine/Add.lean ====
section
/-! DEFINITION. The multi-digit adder and ADD (43_add.md R110). -/

namespace Sys2Proof.Machine

/-- `m` steps of the carry chain from digit `t` on with carry `c`; `w` holds the digits made so far, most
significant first. Answers the last carry and all digits (43_add.md R110). -/
def addChain (a b : Value) : Nat → Nat → Nat → Value → Nat × Value
  | 0, _, c, w => (c, w)
  | m + 1, t, c, w =>
    let s := lo a t + lo b t + c
    addChain a b m (t + 1) (s / 256) (BitVec.ofNat 8 s :: w)

/-- The adder: as long as the longer operand, one digit longer when a carry leaves the top (43_add.md R110). -/
def addValues (a b : Value) : Value :=
  let (c, w) := addChain a b (max a.length b.length) 0 0 []
  if c = 1 then BitVec.ofNat 8 c :: w else w

/-- ADD `rd, rs1, rs2` (43_add.md R110). -/
def execAdd (rd rs1 rs2 : Int) (s : State) : Result :=
  asOperation s (s.operate2 rd rs1 rs2 addValues)

end Sys2Proof.Machine
end

