-- ==== Sys2Proof/Machine/Construction.lean ====
section
/-! DEFINITION. The initializers UINT64, HEX_STRING and CLONE (41_construction.md R90 to R92). -/

namespace Sys2Proof.Machine

/-- UINT64 `v`: slot IPTR takes `minrep(v)` (41_construction.md R90). -/
def execUint64 (v : Word) (s : State) : Result :=
  asInitializer s (.ok (s.initSlot (minrep v.toNat)))

/-- The implicit leading `0` nibble of a string of odd length (41_construction.md R91). -/
def padHex (s : List Char8) : List Char8 := if s.length % 2 = 1 then 0x30#8 :: s else s

/-- Two characters a digit, most significant first (41_construction.md R91). -/
def hexPairs : List Char8 → Value
  | c :: d :: rest => BitVec.ofNat 8 (16 * hexVal c + hexVal d) :: hexPairs rest
  | [_] => []
  | [] => []

/-- The Value HEX_STRING builds, trimmed when HEX_CANON is true (41_construction.md R91). -/
def hexValue (hexCanon : Bool) (s : List Char8) : Value :=
  if hexCanon then canon (hexPairs (padHex s)) else hexPairs (padHex s)

/-- What HEX_STRING does in INITIALIZING (41_construction.md R91). -/
def hexBody (str : List Char8) (s : State) : Except ErrorKind State := do
  if str.length = 0 ∨ str.all isHexDigit = false then .error .invalidHexDigits
  else
    let r := hexValue s.cfg.hexCanon str
    s.checkCapacity r
    return s.initSlot r

/-- HEX_STRING `str` (41_construction.md R91). -/
def execHexString (str : List Char8) (s : State) : Result := asInitializer s (hexBody str s)

/-- What CLONE does in INITIALIZING: slot IPTR takes an exact copy of slot `j` (41_construction.md R92). -/
def cloneBody (j : Int) (s : State) : Except ErrorKind State := do
  let i ← s.checkIndex j
  let r ← s.readSlot i
  return s.initSlot r

/-- CLONE `j` (41_construction.md R92). -/
def execClone (j : Int) (s : State) : Result := asInitializer s (cloneBody j s)

end Sys2Proof.Machine
end

