-- ==== Sys2Proof/Machine/Control.lean ====
section
/-! DEFINITION. The commands of the session: CNT, DUMP and END (46_control.md R148, R151, R152). -/

namespace Sys2Proof.Machine

/-- What CNT does in AWAITING_COUNT (46_control.md R148). -/
def countBody (n : Nat) (s : State) : Except ErrorKind State :=
  if s.cfg.nMax.val < n then .error .capacityExceeded
  else .ok { s with
    nreg := BitVec.ofNat 32 n
    regs := List.replicate n none
    iptr := 0#32
    seq := if n = 0 then .executing else .initializing }

/-- CNT `n` (46_control.md R148). -/
def execCnt (n : Nat) (s : State) : Result := asCount s (countBody n s)

/-- The text lines of `m` slots from slot `i` on, in index order (46_control.md R151). -/
def State.linesFrom (s : State) : Nat → Nat → Except ErrorKind (List Line)
  | 0, _ => .ok []
  | m + 1, i => do
    let v ← s.readSlot i
    let ls ← s.linesFrom m (i + 1)
    return textOf v :: ls

/-- What DUMP does in EXECUTING: the lines of all N slots are appended to OUT (46_control.md R151). -/
def dumpBody (s : State) : Except ErrorKind State := do
  let ls ← s.linesFrom s.count 0
  return s.emit ls

/-- DUMP (46_control.md R151). -/
def execDump (s : State) : Result := asOperation s (dumpBody s)

/-- What END does in EXECUTING: the session ends with success (46_control.md R152). -/
def endBody (s : State) : Except ErrorKind State :=
  .ok { s with seq := .terminated, fail := false, err := 0#4 }

/-- END (46_control.md R152). -/
def execEnd (s : State) : Result := asOperation s (endBody s)

end Sys2Proof.Machine
end

