-- ==== Sys2Proof/Machine/Multiply.lean ====
section
/-! DEFINITION. The scalar multiplier with MUL_UINT64 (44_multiply.md R120) and the schoolbook multiplier
with MUL (44_multiply.md R125). -/

namespace Sys2Proof.Machine

/-- `m` steps of the scalar multiplier from digit `t` on with carry `c`; `w` holds the digits made so far,
most significant first. Answers the last carry and all digits (44_multiply.md R120, first loop). -/
def scalarChain (a : Value) (k : Nat) : Nat → Nat → Nat → Value → Nat × Value
  | 0, _, c, w => (c, w)
  | m + 1, t, c, w =>
    let acc := lo a t * k + c
    scalarChain a k m (t + 1) (acc / 256) (BitVec.ofNat 8 acc :: w)

/-- `m` carry bytes put in front of the digits (44_multiply.md R120, second loop). -/
def carryBytes : Nat → Nat → Value → Value
  | 0, _, w => w
  | m + 1, c, w => carryBytes m (c / 256) (BitVec.ofNat 8 c :: w)

/-- The scalar multiplier: the `len(a) + 8` digits of `a` times `k`, trimmed when SMUL_CANON is true
(44_multiply.md R120). -/
def scalarProduct (smulCanon : Bool) (a : Value) (k : Nat) : Value :=
  let (c, w) := scalarChain a k a.length 0 0 []
  let r := carryBytes 8 c w
  if smulCanon then canon r else r

/-- The slot MUL_UINT64 reads its multiplicand from: `rs1` or `rd` (44_multiply.md R120, R123). -/
def multiplicandSlot (source : SmulSource) (rd rs1 : Nat) : Nat :=
  match source with
  | .src => rs1
  | .dst => rd

/-- What MUL_UINT64 does in EXECUTING: both indices are checked in both SMUL_SOURCE modes, the multiplicand
is `x[rs1]` or `x[rd]` by SMUL_SOURCE (44_multiply.md R120). -/
def mulUint64Body (rd rs1 : Int) (k : Word) (s : State) : Except ErrorKind State := do
  let d ← s.checkIndex rd
  let i ← s.checkIndex rs1
  let a ← s.readSlot (multiplicandSlot s.cfg.smulSource d i)
  s.storeResult d (scalarProduct s.cfg.smulCanon a k.toNat)

/-- MUL_UINT64 `rd, rs1, k` (44_multiply.md R120). -/
def execMulUint64 (rd rs1 : Int) (k : Word) (s : State) : Result :=
  asOperation s (mulUint64Body rd rs1 k s)

/-- The inner pass of the schoolbook multiplier for the digit `ai` at position `i` of op1: cross products
with the first `j` digits of `b`, least significant first, with running carry `c` (44_multiply.md R125).
Answers the leftover carry and the product buffer. -/
def crossPass (ai : Nat) (b : Value) (i : Nat) : Nat → Nat → Value → Nat × Value
  | 0, c, p => (c, p)
  | j + 1, c, p =>
    let t := ai * (b.getD j 0#8).toNat + (p.getD (i + j + 1) 0#8).toNat + c
    crossPass ai b i j (t / 256) (p.set (i + j + 1) (BitVec.ofNat 8 t))

/-- The passes over the first `i` digits of op1, from the least significant one upward; each adds its
leftover carry into position `i` directly (44_multiply.md R125). -/
def crossPasses (a b : Value) : Nat → Value → Value
  | 0, p => p
  | i + 1, p =>
    let (c, q) := crossPass (a.getD i 0#8).toNat b i b.length 0 p
    crossPasses a b i (q.set i (BitVec.ofNat 8 ((q.getD i 0#8).toNat + c)))

/-- The schoolbook multiplier: the product buffer of `len(a) + len(b)` zero digits, all passes, the
leading-zero trim (44_multiply.md R125). -/
def mulValues (a b : Value) : Value :=
  canon (crossPasses a b a.length (zeros (a.length + b.length)))

/-- MUL `rd, rs1, rs2` (44_multiply.md R125). -/
def execMul (rd rs1 rs2 : Int) (s : State) : Result :=
  asOperation s (s.operate2 rd rs1 rs2 mulValues)

end Sys2Proof.Machine
end

