-- ==== Sys2Proof/Machine/Power.lean ====
section
/-! DEFINITION. The exponentiation engine and POW (45_power.md R135 to R137). -/

namespace Sys2Proof.Machine

/-- `mulv(p, q)`: the value MUL computes (45_power.md R135). -/
def mulv (p q : Value) : Value := minrep (Value.val p * Value.val q)

/-- The loop of the binary exponentiation over the bits of `e`, least significant first, with accumulator
`acc` and running square `sq`; the first argument bounds the number of bits (45_power.md R136). -/
def binpowLoop : Nat → Value → Value → Nat → Value
  | 0, acc, _, _ => acc
  | m + 1, acc, sq, e =>
    if e = 0 then acc
    else
      let acc' := if e % 2 = 1 then mulv acc sq else acc
      let e' := e / 2
      binpowLoop m acc' (if 0 < e' then mulv sq sq else sq) e'

/-- Binary exponentiation: accumulator 1, running square `a`, one iteration per bit of `k` (45_power.md R136). -/
def binpow (a : Value) (k : Nat) : Value := binpowLoop (k.log2 + 1) [1#8] a k

/-- What POW computes from its base and exponent in each POW_MODE (45_power.md R135, R137). -/
def power (mode : PowMode) (a : Value) (k : Nat) : Value :=
  if k = 0 then [1#8]
  else if k = 1 then a
  else match mode with
    | .squareOnly => mulv a a
    | .binary => binpow a k

/-- POW `rd, rs1, k` (45_power.md R135). -/
def execPow (rd rs1 : Int) (k : Word) (s : State) : Result :=
  asOperation s (s.operate1 rd rs1 fun a => power s.cfg.powMode a k.toNat)

end Sys2Proof.Machine
end

