-- ==== Sys2Proof/Machine/Shift.lean ====
section
/-! DEFINITION. The bit shifter and SHL (42_shift.md R100). -/

namespace Sys2Proof.Machine

/-- Digit `t` after the byte-level shift by `b` whole digits: `e_t` of 42_shift.md R100. -/
def shiftedDigit (a : Value) (b t : Nat) : Digit :=
  if t + b < a.length then a.getD (t + b) 0#8 else 0#8

/-- The shifter: `a` shifted left by `k` bits within its own length (42_shift.md R100): digit `t` of the
result takes the top bits of the next shifted digit, the last digit is filled with zeros. -/
def shiftLeft (a : Value) (k : Nat) : Value :=
  (List.range a.length).map fun t =>
    if t + 1 < a.length then
      (shiftedDigit a (k / 8) t <<< (k % 8)) |||
        (shiftedDigit a (k / 8) (t + 1) >>> (8 - k % 8))
    else shiftedDigit a (k / 8) t <<< (k % 8)

/-- What SHL does in EXECUTING; no capacity check, as the length is one already held (42_shift.md R100). -/
def shlBody (rd rs1 : Int) (k : Word) (s : State) : Except ErrorKind State := do
  let d ← s.checkIndex rd
  let i ← s.checkIndex rs1
  let a ← s.readSlot i
  return s.writeSlot d (shiftLeft a k.toNat)

/-- SHL `rd, rs1, k` (42_shift.md R100). -/
def execShl (rd rs1 : Int) (k : Word) (s : State) : Result := asOperation s (shlBody rd rs1 k s)

end Sys2Proof.Machine
end

