-- ==== Sys2Proof/Machine/Dispatch.lean ====
section
/-! DEFINITION. One arm per command: the meaning of a command event (46_control.md R147, R150). -/

namespace Sys2Proof.Machine

/-- The sequencer's step on the event `Cmd(i)` (46_control.md R147). -/
def exec (i : Instr) (s : State) : Host.Outcome State Fault Refusal :=
  match i with
  | .cnt n => Sys2Proof.Machine.execCnt n s
  | .uint64 v => Sys2Proof.Machine.execUint64 v s
  | .hexString str => Sys2Proof.Machine.execHexString str s
  | .clone j => Sys2Proof.Machine.execClone j s
  | .shl rd rs1 k => Sys2Proof.Machine.execShl rd rs1 k s
  | .add rd rs1 rs2 => Sys2Proof.Machine.execAdd rd rs1 rs2 s
  | .mulUint64 rd rs1 k => Sys2Proof.Machine.execMulUint64 rd rs1 k s
  | .mul rd rs1 rs2 => Sys2Proof.Machine.execMul rd rs1 rs2 s
  | .pow rd rs1 k => Sys2Proof.Machine.execPow rd rs1 k s
  | .dump => Sys2Proof.Machine.execDump s
  | .endSession => Sys2Proof.Machine.execEnd s

end Sys2Proof.Machine
end

