-- ==== Sys2Proof/WellFormed.lean ====
section
/-! DEFINITION. Which command records the binary command port can carry: every operand fits its
field of 30_encoding.md R62 and R63. A record that does not fit still has its meaning (the text
protocol can deliver it); it has no encoding. -/

namespace Sys2Proof

/-- A slot index fits a 16-bit field of the header (30_encoding.md R62, R63). -/
def Instr.indexFits (i : Int) : Bool := decide (0 ≤ i) && decide (i < 65536)

/-- The command record has an encoding on the binary command port. -/
def Instr.wf : Instr → Bool
  | .cnt n => decide (n < 2 ^ 64)
  | .uint64 _ => true
  | .hexString s => decide (s.length < 2 ^ 32)
  | .clone j => indexFits j
  | .shl rd rs1 _ => indexFits rd && indexFits rs1
  | .add rd rs1 rs2 => indexFits rd && indexFits rs1 && indexFits rs2
  | .mulUint64 rd rs1 _ => indexFits rd && indexFits rs1
  | .mul rd rs1 rs2 => indexFits rd && indexFits rs1 && indexFits rs2
  | .pow rd rs1 _ => indexFits rd && indexFits rs1
  | .dump => true
  | .endSession => true

end Sys2Proof
end

