-- ==== Sys2Proof/Decode.lean ====
section
/-! DEFINITION. The binary command port: the decoder of 30_encoding.md R61 to R67, total on any list of
words and rejecting by name (the events Unrecognized, Truncated, EOI), and after it the encoder. -/

namespace Sys2Proof

/-- The mnemonic an opcode row stands for (30_encoding.md R65). -/
inductive Opcode where
  | cnt | uint64 | hexString | clone | shl | add | mulUint64 | mul | pow | dump | endSession
  deriving DecidableEq, Repr

/-- One row of the opcode map: a header `H` decodes to it when `H & mask = value`. -/
structure OpcodeRow where
  op : Opcode
  value : Word
  mask : Word
  deriving DecidableEq, Repr

/-- The opcode map (30_encoding.md R65, the column "match / mask of H"). -/
def opcodeRows : List OpcodeRow :=
  [ ⟨.cnt,        0x0100000000000000#64, 0xFFFFFFFFFFFFFFFF#64⟩,
    ⟨.uint64,     0x1000000000000000#64, 0xFFFFFFFFFFFFFFFF#64⟩,
    ⟨.hexString,  0x1100000000000000#64, 0xFFFFFFFF00000000#64⟩,
    ⟨.clone,      0x1200000000000000#64, 0xFFFFFFFF0000FFFF#64⟩,
    ⟨.shl,        0x2000000000000000#64, 0xFFFF00000000FFFF#64⟩,
    ⟨.add,        0x2100000000000000#64, 0xFFFF000000000000#64⟩,
    ⟨.mulUint64,  0x2200000000000000#64, 0xFFFF00000000FFFF#64⟩,
    ⟨.mul,        0x2300000000000000#64, 0xFFFF000000000000#64⟩,
    ⟨.pow,        0x2400000000000000#64, 0xFFFF00000000FFFF#64⟩,
    ⟨.dump,       0x3000000000000000#64, 0xFFFFFFFFFFFFFFFF#64⟩,
    ⟨.endSession, 0x3F00000000000000#64, 0xFFFFFFFFFFFFFFFF#64⟩ ]

/-- The header matches the row (30_encoding.md R65). -/
def OpcodeRow.matches (r : OpcodeRow) (h : Word) : Bool := h &&& r.mask == r.value

/-- The row a header decodes to, none for a reserved encoding (30_encoding.md R65, R66). -/
def opcodeOf (h : Word) : Option Opcode := (opcodeRows.find? fun r => r.matches h).map (·.op)

/-- Field OP, bits 63:56 (30_encoding.md R62). -/
def fieldOP (h : Word) : BitVec 8 := h.extractLsb' 56 8

/-- The opcode that a header's opcode byte alone names, whatever its other bits; none for a reserved byte
(30_encoding.md R64, R65). -/
def opcodeByte (h : Word) : Option Opcode :=
  (opcodeRows.find? fun r => fieldOP r.value == fieldOP h).map (·.op)

/-- Field RD, bits 47:32, zero-extended (30_encoding.md R62, R63). -/
def fieldRD (h : Word) : Int := ((h.extractLsb' 32 16).toNat : Int)

/-- Field RS1, bits 31:16, zero-extended (30_encoding.md R62, R63). -/
def fieldRS1 (h : Word) : Int := ((h.extractLsb' 16 16).toNat : Int)

/-- Field RS2, bits 15:0, zero-extended (30_encoding.md R62, R63). -/
def fieldRS2 (h : Word) : Int := ((h.extractLsb' 0 16).toNat : Int)

/-- Field LEN of a HEX_STRING header, bits 31:0 (30_encoding.md R62). -/
def fieldLEN (h : Word) : Nat := (h.extractLsb' 0 32).toNat

/-- The number of payload words that carry `l` characters: `ceil(l/8)` (30_encoding.md R63, R64). -/
def charWords (l : Nat) : Nat := (l + 7) / 8

/-- How many words a command with header `h` and the opcode `op` has (30_encoding.md R64). -/
def commandWords (op : Opcode) (h : Word) : Nat :=
  match op with
  | .cnt | .uint64 | .shl | .mulUint64 | .pow => 2
  | .hexString => 1 + charWords (fieldLEN h)
  | .clone | .add | .mul | .dump | .endSession => 1

/-- Character `c` of the payload words: `P_{c div 8}[63 − 8·(c mod 8) : 56 − 8·(c mod 8)]`
(30_encoding.md R63). -/
def payloadChar (ps : List Word) (c : Nat) : Char8 :=
  (ps.getD (c / 8) 0#64).extractLsb' (56 - 8 * (c % 8)) 8

/-- The `l` characters that payload words carry; the padding after them is ignored (30_encoding.md R63). -/
def unpackChars (l : Nat) (ps : List Word) : List Char8 :=
  (List.range l).map (payloadChar ps)

/-- The command record of a whole command with header `h` and payload words `ps`; `ps` holds at least
the words 30_encoding.md R64 gives the command. -/
def commandOf (op : Opcode) (h : Word) (ps : List Word) : Instr :=
  match op with
  | .cnt => .cnt (ps.getD 0 0#64).toNat
  | .uint64 => .uint64 (ps.getD 0 0#64)
  | .hexString => .hexString (unpackChars (fieldLEN h) ps)
  | .clone => .clone (fieldRS1 h)
  | .shl => .shl (fieldRD h) (fieldRS1 h) (ps.getD 0 0#64)
  | .add => .add (fieldRD h) (fieldRS1 h) (fieldRS2 h)
  | .mulUint64 => .mulUint64 (fieldRD h) (fieldRS1 h) (ps.getD 0 0#64)
  | .mul => .mul (fieldRD h) (fieldRS1 h) (fieldRS2 h)
  | .pow => .pow (fieldRD h) (fieldRS1 h) (ps.getD 0 0#64)
  | .dump => .dump
  | .endSession => .endSession

/-- The decoder of the binary port: every sequence of words yields one event (30_encoding.md R67). -/
def decode : List Word → Event
  | [] => .eoi
  | h :: ps =>
    match opcodeOf h with
    | none => .unrecognized
    | some op =>
      if (h :: ps).length < commandWords op h then .truncated
      else .cmd (commandOf op h ps)

/-- How many words the event takes from the front of the port: the number the opcode byte alone gives
(30_encoding.md R61, R64), also where a must-be-zero bit makes the event Unrecognized (95_test_vectors.md §10,
SHL with RS2 not zero); all that is left of a truncated command. DESIGN CHOICE (log entry 4): under a reserved
opcode byte the header only. -/
def eventWords : List Word → Nat
  | [] => 0
  | h :: _ =>
    match opcodeByte h with
    | none => 1
    | some op => commandWords op h

/-- The port words after the event `decode` reads. -/
def afterEvent (ws : List Word) : List Word := ws.drop (eventWords ws)

/-- The words of a table word: `nbits` bits of `w`, bit 0 the least significant bit of the first word,
every bit above them 0, as many 64-bit words as the first one's opcode byte asks for (one where it is reserved). -/
def tableWords (nbits w : Nat) : List Word :=
  let b := w % 2 ^ nbits
  let h : Word := BitVec.ofNat 64 b
  (List.range (eventWords [h])).map fun c => BitVec.ofNat 64 (b >>> (64 * c))

/-- The command the decoder reads from a table word, none where it refuses. -/
def decodeTableWord (nbits w : Nat) : Option Instr :=
  match decode (tableWords nbits w) with
  | .cmd i => some i
  | .unrecognized | .malformed | .truncated | .eoi => none

/-! The encoder, from the same tables (30_encoding.md R62 to R65). -/

/-- A header with the opcode byte `op` and the index fields RD, RS1, RS2, RSV zero (30_encoding.md R62). -/
def indexHeader (op : BitVec 8) (rd rs1 rs2 : Int) : Word :=
  op ++ 0#8 ++ BitVec.ofInt 16 rd ++ BitVec.ofInt 16 rs1 ++ BitVec.ofInt 16 rs2

/-- A HEX_STRING header with LEN = `l`, RSV zero (30_encoding.md R62). -/
def lengthHeader (l : Nat) : Word := 0x11#8 ++ 0#24 ++ BitVec.ofNat 32 l

/-- The payload word that carries the first eight characters of `cs`, the first in bits 63:56, padded
with zero bytes (30_encoding.md R63). -/
def packWord (cs : List Char8) : Word :=
  cs.getD 0 0#8 ++ cs.getD 1 0#8 ++ cs.getD 2 0#8 ++ cs.getD 3 0#8 ++
    cs.getD 4 0#8 ++ cs.getD 5 0#8 ++ cs.getD 6 0#8 ++ cs.getD 7 0#8

/-- The payload words that carry the characters `cs` (30_encoding.md R63). -/
def packChars (cs : List Char8) : List Word :=
  (List.range (charWords cs.length)).map fun q => packWord (cs.drop (8 * q))

/-- The words of a well-formed command (30_encoding.md R62 to R65). -/
def encode : Instr → List Word
  | .cnt n => [indexHeader 0x01#8 0 0 0, BitVec.ofNat 64 n]
  | .uint64 v => [indexHeader 0x10#8 0 0 0, v]
  | .hexString s => lengthHeader s.length :: packChars s
  | .clone j => [indexHeader 0x12#8 0 j 0]
  | .shl rd rs1 k => [indexHeader 0x20#8 rd rs1 0, k]
  | .add rd rs1 rs2 => [indexHeader 0x21#8 rd rs1 rs2]
  | .mulUint64 rd rs1 k => [indexHeader 0x22#8 rd rs1 0, k]
  | .mul rd rs1 rs2 => [indexHeader 0x23#8 rd rs1 rs2]
  | .pow rd rs1 k => [indexHeader 0x24#8 rd rs1 0, k]
  | .dump => [indexHeader 0x30#8 0 0 0]
  | .endSession => [indexHeader 0x3F#8 0 0 0]

end Sys2Proof
end

