-- ==== Sys2Proof/Machine/TextFront.lean ====
section
/-! DEFINITION. The text front end: the event the lines of the text protocol deliver (30_encoding.md R57
to R60). Its parsing is outside the core (00_scope.md R4); the core receives the event only. -/

namespace Sys2Proof.Machine

/-- The character codes of an ASCII text. -/
def ascii (cs : List Char) : List Char8 := cs.map fun c => BitVec.ofNat 8 c.toNat

/-- A decimal digit `0-9`. -/
def isDecimalDigit (c : Char8) : Bool := decide (0x30 ≤ c.toNat) && decide (c.toNat ≤ 0x39)

/-- The number a string of decimal digits spells. -/
def decimalValue (l : List Char8) : Nat := l.foldl (fun a c => a * 10 + (c.toNat - 0x30)) 0

/-- A decimal numeral `[0-9]+` (30_encoding.md R59, R60). -/
def parseNat (l : List Char8) : Option Nat :=
  if l.isEmpty then none
  else if l.all isDecimalDigit then some (decimalValue l) else none

/-- A register index `-?[0-9]+` (30_encoding.md R60). -/
def parseIndex (l : List Char8) : Option Int :=
  match l with
  | 0x2D#8 :: ds => (parseNat ds).map fun n => -(n : Int)
  | ds => (parseNat ds).map fun n => (n : Int)

/-- A 64-bit literal or scalar: a numeral of value at most `2^64 − 1` (30_encoding.md R60). -/
def parseWord (l : List Char8) : Option Word :=
  match parseNat l with
  | some n => if n < 2 ^ 64 then some (BitVec.ofNat 64 n) else none
  | none => none

/-- A shift amount: a numeral of any size, `2^64 − 1` for a larger value (30_encoding.md R60). -/
def parseShift (l : List Char8) : Option Word :=
  (parseNat l).map fun n => if n < 2 ^ 64 then BitVec.ofNat 64 n else 0xFFFFFFFFFFFFFFFF#64

/-- White space between the fields of an argument line. PRESUMED (log entry 10): space, tab and the other
ASCII white-space characters. -/
def isSpace (c : Char8) : Bool := c == 0x20#8 || (decide (0x09 ≤ c.toNat) && decide (c.toNat ≤ 0x0D))

/-- The white-space separated fields of a line; the first argument is the field read so far, last
character first. DESIGN CHOICE (log entry 10): white space before the first field and after the last is
skipped, and a run of it separates as one does, so no field is empty. -/
def fieldsFrom : List Char8 → List Char8 → List (List Char8)
  | [], [] => []
  | w, [] => [w.reverse]
  | w, c :: cs =>
    if isSpace c then (if w.isEmpty then fieldsFrom [] cs else w.reverse :: fieldsFrom [] cs)
    else fieldsFrom (c :: w) cs

/-- The white-space separated fields of an argument line (30_encoding.md R60); how white space at its ends
and in runs is read is the model's choice (log entry 10). -/
def fields (l : Line) : List (List Char8) := fieldsFrom [] l

/-- The token on an opcode line (30_encoding.md R58). -/
inductive Token where
  | uint64 | hexString | clone | shl | add | mulUint64 | dump | endSession
  deriving DecidableEq, Repr

/-- The spelling of a token (30_encoding.md R58). -/
def Token.spelling : Token → Line
  | .uint64 => ascii ['U', 'I', 'N', 'T', '6', '4']
  | .hexString => ascii ['H', 'E', 'X', '_', 'S', 'T', 'R', 'I', 'N', 'G']
  | .clone => ascii ['C', 'L', 'O', 'N', 'E']
  | .shl => ascii ['S', 'H', 'L']
  | .add => ascii ['A', 'D', 'D']
  | .mulUint64 => ascii ['M', 'U', 'L', '_', 'U', 'I', 'N', 'T', '6', '4']
  | .dump => ascii ['D', 'U', 'M', 'P']
  | .endSession => ascii ['E', 'N', 'D']

/-- All tokens of the text protocol; MUL, POW and CNT are none (30_encoding.md R58). -/
def allTokens : List Token :=
  [.uint64, .hexString, .clone, .shl, .add, .mulUint64, .dump, .endSession]

/-- The token a line spells exactly (30_encoding.md R58). DESIGN CHOICE (log entry 10): the line is matched
whole, so a token with white space around it is none. -/
def tokenOf (l : Line) : Option Token := allTokens.find? fun t => t.spelling == l

/-- The token is followed by an argument line (30_encoding.md R57). -/
def Token.hasArgument : Token → Bool
  | .dump | .endSession => false
  | .uint64 | .hexString | .clone | .shl | .add | .mulUint64 => true

/-- Two indices and a 64-bit amount read by `amount` on one line (30_encoding.md R58, R60). -/
def parseAmountLine (amount : List Char8 → Option Word) (mk : Int → Int → Word → Instr) (arg : Line) :
    Option Instr :=
  match fields arg with
  | [f, g, h] =>
    match parseIndex f, parseIndex g, amount h with
    | some rd, some rs1, some k => some (mk rd rs1 k)
    | _, _, _ => none
  | _ => none

/-- Three indices on one line (30_encoding.md R58, R60). -/
def parseIndexLine (mk : Int → Int → Int → Instr) (arg : Line) : Option Instr :=
  match fields arg with
  | [f, g, h] =>
    match parseIndex f, parseIndex g, parseIndex h with
    | some rd, some rs1, some rs2 => some (mk rd rs1 rs2)
    | _, _, _ => none
  | _ => none

/-- The record a token and its argument line deliver, none where the line does not parse (30_encoding.md
R58, R60). A token without an argument ignores `arg`. -/
def commandOfText (t : Token) (arg : Line) : Option Instr :=
  match t with
  | .uint64 => (parseWord arg).map .uint64
  | .hexString => some (.hexString arg)
  | .clone => (parseIndex arg).map .clone
  | .shl => parseAmountLine parseShift .shl arg
  | .add => parseIndexLine .add arg
  | .mulUint64 => parseAmountLine parseWord .mulUint64 arg
  | .dump => some .dump
  | .endSession => some .endSession

/-- The event of a parsed argument line: `Malformed` where it does not parse (30_encoding.md R60). -/
def eventOfParse : Option Instr → Event
  | some i => .cmd i
  | none => .malformed

/-- The event of a count line (30_encoding.md R58, R59). -/
def countEvent (l : Line) : Event := eventOfParse ((parseNat l).map .cnt)

/-- The event of an opcode line and the lines after it, and the lines left (30_encoding.md R57 to R60).
DESIGN CHOICE (log entry 16): an unrecognized token takes its own line only, so a line after `MUL` or `POW`
that was meant as its arguments is read as the next opcode line. DEDUCED (log entry 11): Malformed and
Truncated in every sequencer state that reads opcode lines. -/
def opcodeEvent (l : Line) (rest : List Line) : Event × List Line :=
  match tokenOf l with
  | none => (.unrecognized, rest)
  | some t =>
    if t.hasArgument then
      match rest with
      | [] => (.truncated, [])
      | arg :: rest' => (eventOfParse (commandOfText t arg), rest')
    else (eventOfParse (commandOfText t []), rest)

/-- The event the front end delivers next from the lines, and the lines left: a count line while SEQ =
AWAITING_COUNT, an opcode line otherwise (30_encoding.md R59); no lines, no more input. -/
def textEvent (seq : Seq) : List Line → Event × List Line
  | [] => (.eoi, [])
  | l :: rest =>
    match seq with
    | .awaitingCount => (countEvent l, rest)
    | .initializing | .executing | .terminated => opcodeEvent l rest

/-! The other way: the lines that deliver a command (30_encoding.md R57, R58). -/

/-- The character of a decimal digit. -/
def decimalChar (d : Nat) : Char8 := BitVec.ofNat 8 (0x30 + d)

/-- The decimal digits of a number put in front of `acc`; the first argument bounds how many there are. -/
def decimalDigits : Nat → Nat → List Char8 → List Char8
  | 0, _, acc => acc
  | m + 1, n, acc =>
    if n < 10 then decimalChar n :: acc
    else decimalDigits m (n / 10) (decimalChar (n % 10) :: acc)

/-- The decimal numeral of a number, without leading zeros. -/
def decimal (n : Nat) : List Char8 := decimalDigits (n.log2 + 1) n []

/-- The decimal numeral of a register index, with `-` in front of a negative one (30_encoding.md R60). -/
def decimalIndex (i : Int) : List Char8 :=
  if i < 0 then 0x2D#8 :: decimal i.natAbs else decimal i.natAbs

/-- Three fields on one argument line, separated by spaces (30_encoding.md R57). -/
def argumentLine (f g h : List Char8) : Line := f ++ [0x20#8] ++ g ++ [0x20#8] ++ h

/-- The lines of the text protocol that deliver a command; none for MUL and POW, which have no text form
(30_encoding.md R58). -/
def textLines : Instr → Option (List Line)
  | .cnt n => some [decimal n]
  | .uint64 v => some [Token.uint64.spelling, decimal v.toNat]
  | .hexString s => some [Token.hexString.spelling, s]
  | .clone j => some [Token.clone.spelling, decimalIndex j]
  | .shl rd rs1 k =>
    some [Token.shl.spelling, argumentLine (decimalIndex rd) (decimalIndex rs1) (decimal k.toNat)]
  | .add rd rs1 rs2 =>
    some [Token.add.spelling, argumentLine (decimalIndex rd) (decimalIndex rs1) (decimalIndex rs2)]
  | .mulUint64 rd rs1 k =>
    some [Token.mulUint64.spelling, argumentLine (decimalIndex rd) (decimalIndex rs1) (decimal k.toNat)]
  | .mul _ _ _ => none
  | .pow _ _ _ => none
  | .dump => some [Token.dump.spelling]
  | .endSession => some [Token.endSession.spelling]

end Sys2Proof.Machine
end

