-- ==== Sys2Proof/Machine/Fetch.lean ====
section
/-! DEFINITION. Taking the next event from what the host has delivered (46_control.md R145, R146). -/

namespace Sys2Proof.Machine

/-- What the core finds when it looks for the next thing to do, with what stays delivered. -/
inductive Fetched where
  /-- Nothing is delivered: the core does nothing (46_control.md R145, 60_exceptions.md R181). -/
  | idle
  /-- The host asserts reset (46_control.md R146). -/
  | reset (rest : List Delivery)
  /-- One event (30_encoding.md R56). -/
  | event (ev : Event) (rest : List Delivery)
  deriving DecidableEq, Repr

/-- Words left of a port delivery stay in front; a delivery used up is gone. -/
def restPort (ws : List Word) (rest : List Delivery) : List Delivery :=
  if ws.isEmpty then rest else .port ws :: rest

/-- Lines left of a text delivery stay in front; a delivery used up is gone. -/
def restText (ls : List Line) (rest : List Delivery) : List Delivery :=
  if ls.isEmpty then rest else .text ls :: rest

/-- The next event or reset, in order of delivery (46_control.md R145, R146; 20_memory.md R47). -/
def fetch (seq : Seq) : List Delivery → Fetched
  | [] => .idle
  | .reset :: rest => .reset rest
  | .event ev :: rest => .event ev rest
  | .port ws :: rest => .event (decode ws) (restPort (afterEvent ws) rest)
  | .text ls :: rest => .event (textEvent seq ls).1 (restText (textEvent seq ls).2 rest)

end Sys2Proof.Machine
end

