-- ==== Sys2Proof/Machine/Step.lean ====
section
/-! DEFINITION. One step of the machine: the next event the host has delivered, taken by the sequencer
(46_control.md R145, R147). -/

namespace Sys2Proof.Machine

/-- The sequencer's step on one event (46_control.md R147). -/
def deliver (ev : Event) (s : State) : Result :=
  match ev with
  | .cmd i => exec i s
  | .unrecognized => .next (onUnrecognized s)
  | .malformed => .next (onMalformed s)
  | .truncated => .next (onTruncated s)
  | .eoi => .next (onEndOfInput s)

/-- The state with other deliveries pending. -/
def State.withInbox (s : State) (ds : List Delivery) : State := { s with inbox := ds }

/-- One step: nothing delivered, nothing done; a reset resets; an event is consumed and taken by the
sequencer (46_control.md R145 to R147, 70_reset_and_hazards.md R185). -/
def step (s : State) : Host.Outcome State Fault Refusal :=
  match fetch s.seq s.inbox with
  | .idle => .next s
  | .reset rest => .next (s.withInbox rest).hostReset
  | .event ev rest => deliver ev (s.withInbox rest)

/-- The state in which a table word's instruction is the next delivery on the binary command port (log
entry 2): step fetches its words first. -/
def State.withFetchWord (s : State) (nbits w : Nat) : State :=
  s.withInbox (.port (tableWords nbits w) :: s.inbox)

end Sys2Proof.Machine
end

