-- ==== Sys2Proof/Safety.lean ====
section
/-! DEFINITION. What the spec promises of every state of a run, and the relation between two cores that
differ only in what the spec says no output shows. -/

namespace Sys2Proof

/-- A Value a register may hold: `1 ≤ len ≤ L_MAX` (10_state.md R23). -/
abbrev Value.Fits (lMax : Nat) (v : Value) : Prop := 1 ≤ v.length ∧ v.length ≤ lMax

/-- A canonical Value: "a Value `v` with `v = canon(v)`" (00_scope.md R11, 40_canonicalization.md R81). -/
abbrev Value.Canonical (v : Value) : Prop := canon v = v

/-- The number a string of hexadecimal digits spells. -/
def hexNumber (s : List Char8) : Nat := s.foldl (fun a c => a * 16 + hexVal c) 0

/-- A hexadecimal character in lower case; any other character is left alone (40_canonicalization.md R86). -/
def lowerHex (c : Char8) : Char8 := if 0x41 ≤ c.toNat ∧ c.toNat ≤ 0x46 then c + 0x20#8 else c

/-- Leading `00` pairs removed while more than one pair remains (40_canonicalization.md R86). -/
def dropZeroPairs : List Char8 → List Char8
  | c :: d :: e :: rest =>
    if c = 0x30#8 ∧ d = 0x30#8 then dropZeroPairs (e :: rest) else c :: d :: e :: rest
  | short => short

/-- The Value HEX_STRING makes of a valid string, in closed form: the `ceil(L/2)` digits of the number it
spells, the shortest Value of that number when HEX_CANON is true (41_construction.md R91). -/
def hexStored (hexCanon : Bool) (str : List Char8) : Value :=
  if hexCanon then minrep (hexNumber str) else rep ((str.length + 1) / 2) (hexNumber str)

/-- The command is an initializer that slot `i` of a session takes without an error: a literal, a valid
string whose Value fits, a copy of an earlier slot (70_reset_and_hazards.md R187, 41_construction.md R90 to
R93). -/
def Instr.Initializes (p : Params) (i : Nat) : Instr → Prop
  | .uint64 _ => True
  | .hexString str =>
    str ≠ [] ∧ str.all isHexDigit = true ∧ (hexStored p.hexCanon str).length ≤ p.lMax
  | .clone j => 0 ≤ j ∧ j < i
  | .cnt _ | .shl _ _ _ | .add _ _ _ | .mulUint64 _ _ _ | .mul _ _ _ | .pow _ _ _ | .dump
  | .endSession => False

end Sys2Proof

namespace Sys2Proof.Machine

/-- The invariant of the machine: what 10_state.md R22, R23, R29, R30, 41_construction.md R93 and
60_exceptions.md R165 say of every state. -/
structure State.Inv (s : State) : Prop where
  /-- `N ≤ N_MAX` (R22). -/
  count_le : s.count ≤ s.cfg.nMax.val
  /-- The register file has N slots (R22). -/
  regs_length : s.regs.length = s.count
  /-- IPTR never passes N (R30). -/
  iptr_le : s.iptr.toNat ≤ s.count
  /-- Slots below IPTR hold Values of legal length (R93, R23). -/
  written : ∀ i, i < s.iptr.toNat → ∃ v, s.slot i = some v ∧ Value.Fits s.cfg.lMax v
  /-- Slots from IPTR on are Uninit (R93). -/
  unwritten : ∀ i, s.iptr.toNat ≤ i → s.slot i = none
  /-- Before the count there is no register file and no output (R32). -/
  awaiting : s.seq = .awaitingCount → s.nreg = 0#32 ∧ s.iptr = 0#32 ∧ s.out = []
  /-- While INITIALIZING a slot is left to initialize and nothing is printed (R30, R151). -/
  initializing : s.seq = .initializing → s.iptr.toNat < s.count ∧ s.out = []
  /-- IPTR equals N in EXECUTING (R30). -/
  executing : s.seq = .executing → s.iptr = s.nreg
  /-- `FAIL = 1` implies `SEQ = 3` and an error code 1 to 9 (R29, R165). -/
  failed : s.fail = true → s.seq = .terminated ∧ 1 ≤ s.err.toNat ∧ s.err.toNat ≤ 9
  /-- ERR is 0 unless FAIL = 1 (R29). -/
  not_failed : s.fail = false → s.err = 0#4
  /-- Every line of OUT is the text form of a Value (R45, R84). -/
  out_lines : ∀ l ∈ s.out, ∃ v : Value, v ≠ [] ∧ l = textOf v

/-- The Values the binary exponentiation makes on its way: every accumulator and every squared running
square, in the order of 45_power.md R136, with the arguments of `binpowLoop`. -/
def binpowTrace : Nat → Value → Value → Nat → List Value
  | 0, _, _, _ => []
  | m + 1, acc, sq, e =>
    if e = 0 then []
    else
      let acc' := if e % 2 = 1 then mulv acc sq else acc
      let e' := e / 2
      if 0 < e' then acc' :: mulv sq sq :: binpowTrace m acc' (mulv sq sq) e'
      else [acc']

/-- Two slots that hold Values of the same number, or are both Uninit. -/
def slotsAgree : Option Value → Option Value → Prop
  | none, none => True
  | some v, some w => v ≠ [] ∧ w ≠ [] ∧ Value.val v = Value.val w
  | none, some _ => False
  | some _, none => False

/-- Two states that agree in everything but the lengths of the stored Values, what the host has still to
deliver, and the parameters that decide lengths: N_MAX, L_MAX, SMUL_CANON, HEX_CANON
(70_reset_and_hazards.md R190). -/
structure SameNumbers (s t : State) : Prop where
  powMode : s.cfg.powMode = t.cfg.powMode
  smulSource : s.cfg.smulSource = t.cfg.smulSource
  seq : s.seq = t.seq
  fail : s.fail = t.fail
  err : s.err = t.err
  nreg : s.nreg = t.nreg
  iptr : s.iptr = t.iptr
  regs : List.Forall₂ slotsAgree s.regs t.regs
  out : s.out = t.out

end Sys2Proof.Machine
end

