-- ==== Sys2Proof/Certificates/Slice0/Obligations.lean ====
section
/-! DEFINITION. The statements for the provers: what the rules of the spec say the core does. -/

open Sys2Proof Sys2Proof.Machine

/-! ## Reset and the invariant -/

/-- 10_state.md R32: the reset value of every piece of state; the slots CNT makes are Uninit; reading an
Uninit slot is an error, never a zero. That reset takes the opaque parameters is the model's own (log entry 1,
DESIGN CHOICE), and that the error of every such read is UninitializedRegister, where R92 says it of CLONE only,
is log entry 7 (DEDUCED). -/
def Obligations.ResetGivesEveryPieceItsValue : Prop :=
  State.reset = State.resetWith Config.params ∧
  (∀ p : Params,
    (State.resetWith p).seq = .awaitingCount ∧ (State.resetWith p).statusWord = 0#32 ∧
    (State.resetWith p).fail = false ∧ (State.resetWith p).err = 0#4 ∧
    (State.resetWith p).nreg = 0#32 ∧ (State.resetWith p).iptr = 0#32 ∧
    (State.resetWith p).regs = [] ∧ (State.resetWith p).out = []) ∧
  (∀ (p : Params) (n : Nat), n ≤ p.nMax.val →
    ∃ t, exec (.cnt n) (State.resetWith p) = .next t ∧ t.regs = List.replicate n none) ∧
  (∀ (s : State) (i : Nat), i < s.count → s.slot i = none →
    s.readSlot i = .error .uninitializedRegister)

/-- 70_reset_and_hazards.md R185: reset at power-on, reset asserted by the host between two steps, and
reset as the only way out of TERMINATED. That the parameters and the deliveries still pending stay is the model's own
(log entries 1 and 12). -/
def Obligations.HostResetStartsANewSession : Prop :=
  (∀ p : Params, State.resetWith p =
    { cfg := p, seq := .awaitingCount, fail := false, err := 0#4, nreg := 0#32, iptr := 0#32,
      regs := [], out := [], inbox := [] }) ∧
  State.reset = State.resetWith Config.params ∧
  (∀ (s : State) (rest : List Delivery), s.inbox = .reset :: rest →
    step s = .next
      { cfg := s.cfg, seq := .awaitingCount, fail := false, err := 0#4, nreg := 0#32,
        iptr := 0#32, regs := [], out := [], inbox := rest }) ∧
  (∀ s t : State, s.seq = .terminated → (∀ rest, s.inbox ≠ .reset :: rest) →
    step s = .next t → t.seq = .terminated)

/-- The reset state of every implementation meets the invariant. -/
def Obligations.ResetMeetsInvariant : Prop := ∀ p : Params, (State.resetWith p).Inv

/-- Every step keeps the invariant of the machine (10_state.md R22, R23, R29, R30; 41_construction.md R93;
20_memory.md R45; 60_exceptions.md R165), from every state that meets it. -/
def Obligations.StepKeepsInvariant : Prop :=
  ∀ s t : State, s.Inv → step s = .next t → t.Inv

/-- 10_state.md R22 and 00_scope.md R5: N is set once and never changed in the session; no step changes a
parameter (that the parameters stand in the state is the model's own, log entry 1). -/
def Obligations.CountIsFixedForTheSession : Prop :=
  (∀ s t : State, step s = .next t → t.cfg = s.cfg) ∧
  (∀ s t : State, s.seq ≠ .awaitingCount → (∀ rest, s.inbox ≠ .reset :: rest) → step s = .next t →
    t.nreg = s.nreg ∧ t.regs.length = s.regs.length)

/-- Under the invariant the reserved bits of NREG and IPTR read 0, IPTR is 0 before the count and N in
EXECUTING (10_state.md R30); FAIL = 1 implies SEQ = 3 and ERR not 0, and the fields of STATUS stand where
R29 puts them. -/
def Obligations.StatusRegistersReadAsLaidOut : Prop :=
  ∀ s : State, s.Inv →
    s.nreg >>> 17 = 0#32 ∧ s.iptr >>> 17 = 0#32 ∧
    (s.seq = .awaitingCount → s.nreg = 0#32 ∧ s.iptr = 0#32) ∧
    (s.seq = .executing → s.iptr = s.nreg) ∧
    s.statusWord.extractLsb' 0 2 =
      (match s.seq with
        | .awaitingCount => 0#2 | .initializing => 1#2 | .executing => 2#2 | .terminated => 3#2) ∧
    s.statusWord.getLsbD 2 = s.fail ∧ s.statusWord.getLsbD 3 = false ∧
    s.statusWord.extractLsb' 4 4 = s.err ∧ s.statusWord >>> 8 = 0#32 ∧
    (s.statusWord.getLsbD 2 = true →
      s.statusWord.extractLsb' 0 2 = 3#2 ∧ s.statusWord.extractLsb' 4 4 ≠ 0#4)

/-! ## The sequencer -/

/-- 46_control.md R147, AWAITING_COUNT: every event but CNT is MalformedCount (code 1). -/
def Obligations.EventsBeforeTheCountAreMalformedCount : Prop :=
  ∀ (s : State) (ev : Event), s.seq = .awaitingCount → (∀ n, ev ≠ .cmd (.cnt n)) →
    deliver ev s = .next { s with seq := .terminated, fail := true, err := 1#4 }

/-- 46_control.md R147, INITIALIZING: CNT and every operation are UnknownInitializer (2), as is
Unrecognized; Malformed is MalformedArgument (9), Truncated and EOI are TruncatedInput (4). -/
def Obligations.EventsRefusedWhileInitializing : Prop :=
  ∀ s : State, s.seq = .initializing →
    (∀ i : Instr, (∀ v, i ≠ .uint64 v) → (∀ str, i ≠ .hexString str) → (∀ j, i ≠ .clone j) →
      deliver (.cmd i) s = .next { s with seq := .terminated, fail := true, err := 2#4 }) ∧
    deliver .unrecognized s = .next { s with seq := .terminated, fail := true, err := 2#4 } ∧
    deliver .malformed s = .next { s with seq := .terminated, fail := true, err := 9#4 } ∧
    deliver .truncated s = .next { s with seq := .terminated, fail := true, err := 4#4 } ∧
    deliver .eoi s = .next { s with seq := .terminated, fail := true, err := 4#4 }

/-- 46_control.md R147, EXECUTING: CNT and every initializer are UnknownOperation (3), as is Unrecognized;
Malformed is MalformedArgument (9), Truncated and EOI are TruncatedInput (4). -/
def Obligations.EventsRefusedWhileExecuting : Prop :=
  ∀ s : State, s.seq = .executing →
    (∀ (n : Nat) (v : Word) (str : List Char8) (j : Int),
      exec (.cnt n) s = .next { s with seq := .terminated, fail := true, err := 3#4 } ∧
      exec (.uint64 v) s = .next { s with seq := .terminated, fail := true, err := 3#4 } ∧
      exec (.hexString str) s = .next { s with seq := .terminated, fail := true, err := 3#4 } ∧
      exec (.clone j) s = .next { s with seq := .terminated, fail := true, err := 3#4 }) ∧
    deliver .unrecognized s = .next { s with seq := .terminated, fail := true, err := 3#4 } ∧
    deliver .malformed s = .next { s with seq := .terminated, fail := true, err := 9#4 } ∧
    deliver .truncated s = .next { s with seq := .terminated, fail := true, err := 4#4 } ∧
    deliver .eoi s = .next { s with seq := .terminated, fail := true, err := 4#4 }

/-- 46_control.md R153: once TERMINATED, every later event leaves all state unchanged and is not reported;
only reset leaves TERMINATED; what the slots hold is nothing to the host. That a step takes the event from `inbox`
is the model's own (log entry 2). -/
def Obligations.TerminatedIsFinal : Prop :=
  (∀ (s : State) (ev : Event), s.seq = .terminated → deliver ev s = .next s) ∧
  (∀ s : State, s.seq = .terminated → (∀ rest, s.inbox ≠ .reset :: rest) →
    ∃ ds, step s = .next { s with inbox := ds }) ∧
  (∀ (s : State) (rest : List Delivery), s.inbox = .reset :: rest →
    ∃ t, step s = .next t ∧ t.seq = .awaitingCount) ∧
  (∀ (s t u : State) (r : List (Option Value)), s.seq = .terminated →
    step s = .next t → step { s with regs := r } = .next u → u.hostView = t.hostView)

/-- 60_exceptions.md R170 and R165: an event that makes FAIL 1 does nothing but end the session: SEQ, FAIL
and ERR, with a code from 1 to 9; no slot, NREG, IPTR or OUT write happens, and no later event has an effect. -/
def Obligations.ErrorsWriteNothingElse : Prop :=
  ∀ (ev : Event) (s t : State), s.fail = false → deliver ev s = .next t → t.fail = true →
    1 ≤ t.err.toNat ∧ t.err.toNat ≤ 9 ∧
      t = { s with seq := .terminated, fail := true, err := t.err } ∧
      ∀ later : Event, deliver later t = .next t

/-- 60_exceptions.md R175 with the codes of R165: what the host sees of an error. -/
def Obligations.StatusOfAnError : Prop :=
  ∀ (k : ErrorKind) (s : State),
    (s.raise k).statusWord = 0x00000007#32 ||| (k.code.setWidth 32 <<< 4) ∧
    (s.raise k).out = s.out ∧ (s.raise k).nreg = s.nreg ∧ (s.raise k).iptr = s.iptr ∧
    (s.raise .malformedCount).statusWord = 0x00000017#32 ∧
    (s.raise .unknownInitializer).statusWord = 0x00000027#32 ∧
    (s.raise .unknownOperation).statusWord = 0x00000037#32 ∧
    (s.raise .truncatedInput).statusWord = 0x00000047#32 ∧
    (s.raise .invalidHexDigits).statusWord = 0x00000057#32 ∧
    (s.raise .indexOutOfRange).statusWord = 0x00000067#32 ∧
    (s.raise .uninitializedRegister).statusWord = 0x00000077#32 ∧
    (s.raise .capacityExceeded).statusWord = 0x00000087#32 ∧
    (s.raise .malformedArgument).statusWord = 0x00000097#32

/-- 60_exceptions.md R168 and R171: an index outside `0..N-1` is IndexOutOfRange (code 6) before any slot is
read and before the capacity check, whatever the slots hold. -/
def Obligations.IndexOutOfRangeComesFirst : Prop :=
  ∀ (s : State) (rd rs1 rs2 : Int) (k : Word),
    (s.seq = .executing →
      ((rd < 0 ∨ s.count ≤ rd) ∨ (rs1 < 0 ∨ s.count ≤ rs1) →
        exec (.shl rd rs1 k) s = .next { s with seq := .terminated, fail := true, err := 6#4 } ∧
        exec (.mulUint64 rd rs1 k) s = .next { s with seq := .terminated, fail := true, err := 6#4 } ∧
        exec (.pow rd rs1 k) s = .next { s with seq := .terminated, fail := true, err := 6#4 }) ∧
      ((rd < 0 ∨ s.count ≤ rd) ∨ (rs1 < 0 ∨ s.count ≤ rs1) ∨ (rs2 < 0 ∨ s.count ≤ rs2) →
        exec (.add rd rs1 rs2) s = .next { s with seq := .terminated, fail := true, err := 6#4 } ∧
        exec (.mul rd rs1 rs2) s = .next { s with seq := .terminated, fail := true, err := 6#4 })) ∧
    (s.seq = .initializing → (rs1 < 0 ∨ s.count ≤ rs1) →
      exec (.clone rs1) s = .next { s with seq := .terminated, fail := true, err := 6#4 })

/-! ## The count and the initializers -/

/-- 46_control.md R148: CNT. -/
def Obligations.CountMakesTheRegisterFile : Prop :=
  ∀ (n : Nat) (s : State),
    (s.seq = .awaitingCount → n ≤ s.cfg.nMax.val →
      exec (.cnt n) s = .next { s with
        nreg := BitVec.ofNat 32 n
        regs := List.replicate n none
        iptr := 0#32
        seq := if n = 0 then .executing else .initializing }) ∧
    (s.seq = .awaitingCount → s.cfg.nMax.val < n →
      exec (.cnt n) s = .next { s with seq := .terminated, fail := true, err := 8#4 }) ∧
    (s.seq = .initializing →
      exec (.cnt n) s = .next { s with seq := .terminated, fail := true, err := 2#4 }) ∧
    (s.seq = .executing →
      exec (.cnt n) s = .next { s with seq := .terminated, fail := true, err := 3#4 })

/-- 41_construction.md R90 with the advance of 46_control.md R149: UINT64. The Value stored denotes the
literal, has one to eight digits and is canonical. -/
def Obligations.Uint64StoresItsLiteral : Prop :=
  ∀ (v : Word) (s : State), s.seq = .initializing → s.iptr.toNat < s.count →
    ∃ r : Value, Value.val r = v.toNat ∧ 1 ≤ r.length ∧ r.length ≤ 8 ∧ Value.Canonical r ∧
      exec (.uint64 v) s = .next { s with
        regs := s.regs.set s.iptr.toNat (some r)
        iptr := s.iptr + 1#32
        seq := if s.iptr.toNat + 1 = s.count then .executing else .initializing }

/-- 41_construction.md R91 with the advance of 46_control.md R149: HEX_STRING on a non-empty string of
hexadecimal digits stores the `ceil(L/2)` digits of the number it spells (the shortest Value of that
number when HEX_CANON is true), or raises CapacityExceeded when they do not fit. -/
def Obligations.HexStringStoresItsNumber : Prop :=
  ∀ (str : List Char8) (s : State), s.seq = .initializing → s.iptr.toNat < s.count →
    str ≠ [] → str.all isHexDigit = true →
    let r := if s.cfg.hexCanon then minrep (hexNumber str)
      else rep ((str.length + 1) / 2) (hexNumber str)
    (r.length ≤ s.cfg.lMax →
      exec (.hexString str) s = .next { s with
        regs := s.regs.set s.iptr.toNat (some r)
        iptr := s.iptr + 1#32
        seq := if s.iptr.toNat + 1 = s.count then .executing else .initializing }) ∧
    (s.cfg.lMax < r.length →
      exec (.hexString str) s = .next { s with seq := .terminated, fail := true, err := 8#4 })

/-- 41_construction.md R91 and 60_exceptions.md R171: an empty string, or one with a character that is no
hexadecimal digit, is InvalidHexDigits (code 5), however long it is. -/
def Obligations.HexStringRejectsOtherCharacters : Prop :=
  ∀ (str : List Char8) (s : State), s.seq = .initializing →
    (str = [] ∨ ∃ c ∈ str,
      ¬ (0x30 ≤ c.toNat ∧ c.toNat ≤ 0x39) ∧ ¬ (0x61 ≤ c.toNat ∧ c.toNat ≤ 0x66) ∧
        ¬ (0x41 ≤ c.toNat ∧ c.toNat ≤ 0x46)) →
    exec (.hexString str) s = .next { s with seq := .terminated, fail := true, err := 5#4 }

/-- 41_construction.md R92 with the advance of 46_control.md R149: CLONE. -/
def Obligations.CloneCopiesASlot : Prop :=
  ∀ (j : Int) (s : State), s.seq = .initializing → s.iptr.toNat < s.count →
    (j < 0 ∨ s.count ≤ j →
      exec (.clone j) s = .next { s with seq := .terminated, fail := true, err := 6#4 }) ∧
    (0 ≤ j → j < s.count → s.slot j.toNat = none →
      exec (.clone j) s = .next { s with seq := .terminated, fail := true, err := 7#4 }) ∧
    (∀ v : Value, 0 ≤ j → j < s.count → s.slot j.toNat = some v →
      exec (.clone j) s = .next { s with
        regs := s.regs.set s.iptr.toNat (some v)
        iptr := s.iptr + 1#32
        seq := if s.iptr.toNat + 1 = s.count then .executing else .initializing })

/-- 41_construction.md R93: while INITIALIZING the slots below IPTR hold Values and the others are Uninit, so
CLONE succeeds exactly on an index below IPTR, is UninitializedRegister from IPTR to N and IndexOutOfRange
otherwise; in EXECUTING every slot holds a Value. -/
def Obligations.CloneReachesOnlyEarlierSlots : Prop :=
  ∀ s : State, s.Inv →
    (s.seq = .initializing →
      (∀ i, i < s.iptr.toNat → ∃ v, s.slot i = some v) ∧
      (∀ i, s.iptr.toNat ≤ i → s.slot i = none) ∧
      (∀ (j : Int) (t : State), exec (.clone j) s = .next t →
        (t.fail = false ↔ 0 ≤ j ∧ j < s.iptr.toNat)) ∧
      (∀ j : Int, (s.iptr.toNat : Int) ≤ j → j < s.count →
        exec (.clone j) s = .next { s with seq := .terminated, fail := true, err := 7#4 }) ∧
      (∀ j : Int, (j < 0 ∨ s.count ≤ j) →
        exec (.clone j) s = .next { s with seq := .terminated, fail := true, err := 6#4 })) ∧
    (s.seq = .executing → ∀ i, i < s.count → ∃ v, s.slot i = some v)

/-! ## The arithmetic -/

/-- 42_shift.md R101: SHL stores `rep_n((val(a) · 2^k) mod 256^n)`; every amount of at least `8n` bits, and so
every one of at least `2^35`, gives `zeros(n)`, which is why the text front end may deliver a larger amount
as `2^64 − 1`. -/
def Obligations.ShiftIsModular : Prop :=
  (∀ (rd rs1 : Nat) (k : Word) (a : Value) (s : State), s.seq = .executing →
    rd < s.count → rs1 < s.count → s.slot rs1 = some a →
    exec (.shl rd rs1 k) s = .next { s with
      regs := s.regs.set rd
        (some (rep a.length ((Value.val a * 2 ^ k.toNat) % 256 ^ a.length))) }) ∧
  (∀ (a : Value) (k : Nat), 8 * a.length ≤ k →
    rep a.length ((Value.val a * 2 ^ k) % 256 ^ a.length) = zeros a.length) ∧
  (∀ (p : Params) (a : Value) (k : Nat), Value.Fits p.lMax a → 2 ^ 35 ≤ k → 8 * a.length ≤ k) ∧
  (∀ (p : Params) (a : Value) (k : Nat), Value.Fits p.lMax a → 2 ^ 64 - 1 ≤ k →
    shiftLeft a k = shiftLeft a (2 ^ 64 - 1))

/-- 43_add.md R111: ADD is exact; its result is one digit longer than the longer operand exactly when the sum
needs it. Only CapacityExceeded can stop it (R110). -/
def Obligations.AddIsExact : Prop :=
  ∀ (rd rs1 rs2 : Nat) (a b : Value) (s : State), s.seq = .executing →
    rd < s.count → rs1 < s.count → rs2 < s.count → s.slot rs1 = some a → s.slot rs2 = some b →
    let n := max a.length b.length
    let r := if 256 ^ n ≤ Value.val a + Value.val b then rep (n + 1) (Value.val a + Value.val b)
      else rep n (Value.val a + Value.val b)
    (r.length ≤ s.cfg.lMax →
      exec (.add rd rs1 rs2) s = .next { s with regs := s.regs.set rd (some r) }) ∧
    (s.cfg.lMax < r.length →
      exec (.add rd rs1 rs2) s = .next { s with seq := .terminated, fail := true, err := 8#4 })

/-- 43_add.md R112: ADD is commutative on Values, in every state, errors included. -/
def Obligations.AddCommutes : Prop :=
  ∀ (rd rs1 rs2 : Int) (s : State), exec (.add rd rs1 rs2) s = exec (.add rd rs2 rs1) s

/-- 44_multiply.md R121: MUL_UINT64 stores the exact product, `len + 8` digits or the shortest Value by
SMUL_CANON, of the register SMUL_SOURCE names. Only CapacityExceeded can stop it (R120). -/
def Obligations.ScalarProductIsExact : Prop :=
  ∀ (rd rs1 : Nat) (k : Word) (a : Value) (s : State), s.seq = .executing →
    rd < s.count → rs1 < s.count →
    s.slot (match s.cfg.smulSource with | .src => rs1 | .dst => rd) = some a →
    let r := if s.cfg.smulCanon then minrep (Value.val a * k.toNat)
      else rep (a.length + 8) (Value.val a * k.toNat)
    Value.val r = Value.val a * k.toNat ∧
    (r.length ≤ s.cfg.lMax →
      exec (.mulUint64 rd rs1 k) s = .next { s with regs := s.regs.set rd (some r) }) ∧
    (s.cfg.lMax < r.length →
      exec (.mulUint64 rd rs1 k) s = .next { s with seq := .terminated, fail := true, err := 8#4 })

/-- 44_multiply.md R123: with `rd = rs1` both values of SMUL_SOURCE give the same result. -/
def Obligations.SmulSourceDoesNotMatterInPlace : Prop :=
  ∀ (rd : Int) (k : Word) (s t u : State),
    exec (.mulUint64 rd rd k) { s with cfg := { s.cfg with smulSource := .src } } = .next t →
    exec (.mulUint64 rd rd k) { s with cfg := { s.cfg with smulSource := .dst } } = .next u →
    u = { t with cfg := { s.cfg with smulSource := .dst } }

/-- 44_multiply.md R126: MUL stores `minrep(val(a) · val(b))`. Only CapacityExceeded can stop it (R125). Values
are non-empty digit lists (00_scope.md R7). -/
def Obligations.SchoolbookProductIsExact : Prop :=
  ∀ (rd rs1 rs2 : Nat) (a b : Value) (s : State), s.seq = .executing →
    rd < s.count → rs1 < s.count → rs2 < s.count → s.slot rs1 = some a → s.slot rs2 = some b →
    a ≠ [] → b ≠ [] →
    let r := minrep (Value.val a * Value.val b)
    (r.length ≤ s.cfg.lMax →
      exec (.mul rd rs1 rs2) s = .next { s with regs := s.regs.set rd (some r) }) ∧
    (s.cfg.lMax < r.length →
      exec (.mul rd rs1 rs2) s = .next { s with seq := .terminated, fail := true, err := 8#4 })

/-- 45_power.md R138: POW stores `[0x01]` for exponent 0, a copy for 1, and above that the power (binary) or the
square (square_only) as the shortest Value. Only CapacityExceeded can stop it (R135). -/
def Obligations.PowerIsExact : Prop :=
  ∀ (rd rs1 : Nat) (k : Word) (a : Value) (s : State), s.seq = .executing →
    rd < s.count → rs1 < s.count → s.slot rs1 = some a →
    let r := if k = 0#64 then [0x01#8]
      else if k = 1#64 then a
      else match s.cfg.powMode with
        | .binary => minrep (Value.val a ^ k.toNat)
        | .squareOnly => minrep (Value.val a ^ 2)
    (r.length ≤ s.cfg.lMax →
      exec (.pow rd rs1 k) s = .next { s with regs := s.regs.set rd (some r) }) ∧
    (s.cfg.lMax < r.length →
      exec (.pow rd rs1 k) s = .next { s with seq := .terminated, fail := true, err := 8#4 })

/-- 45_power.md R138, the last sentences: in binary mode a capacity is exceeded by the result exactly when it is
exceeded by some accumulator or squared running square on the way (`binpowTrace` lists them). -/
def Obligations.PowerIntermediatesFitWithTheResult : Prop :=
  ∀ (a : Value) (k l : Nat), 2 ≤ k → 1 ≤ l →
    ((∃ v ∈ binpowTrace (k.log2 + 1) [0x01#8] a k, l < v.length) ↔ l < (binpow a k).length)

/-- POW with exponent 2 is MUL of the base by itself, in both POW_MODE values (45_power.md R135, R137), in every
state whose slots hold non-empty Values, errors included. -/
def Obligations.SquareByPowerIsMul : Prop :=
  ∀ (rd rs1 : Int) (s : State), (∀ i v, s.slot i = some v → v ≠ []) →
    exec (.pow rd rs1 2#64) s = exec (.mul rd rs1 rs1) s

/-- 70_reset_and_hazards.md R189: naming a source slot as the destination stores what naming another slot
stores. -/
def Obligations.AliasedDestinationGetsTheSameValue : Prop :=
  ∀ (s : State) (rd rd' : Nat) (rs1 rs2 : Int) (k : Word), s.Inv → s.seq = .executing →
    rd < s.count → rd' < s.count →
    ∀ i ∈ [(Instr.shl rd rs1 k, Instr.shl rd' rs1 k), (.add rd rs1 rs2, .add rd' rs1 rs2),
        (.mul rd rs1 rs2, .mul rd' rs1 rs2), (.pow rd rs1 k, .pow rd' rs1 k)] ++
        (if s.cfg.smulSource = .src then [(.mulUint64 rd rs1 k, .mulUint64 rd' rs1 k)] else []),
      ∀ t u : State, exec i.1 s = .next t → exec i.2 s = .next u →
        t.seq = u.seq ∧ t.err = u.err ∧ (t.seq = .executing → t.slot rd = u.slot rd')

/-- 70_reset_and_hazards.md R190: "a Value's length shows in DUMP output only through SHL": two cores that agree in
everything but the lengths of Values and the parameters that decide lengths agree so again after every command
but SHL, as long as neither runs out of capacity. -/
def Obligations.LengthsShowOnlyThroughShift : Prop :=
  ∀ (i : Instr) (s t s' t' : State), SameNumbers s t → (∀ rd rs1 k, i ≠ .shl rd rs1 k) →
    exec i s = .next s' → exec i t = .next t' → s'.err ≠ 8#4 → t'.err ≠ 8#4 → SameNumbers s' t'

/-! ## DUMP, END and OUT -/

/-- 46_control.md R151: DUMP appends the text form of every slot in index order and changes nothing else. -/
def Obligations.DumpPrintsEverySlot : Prop :=
  ∀ (s : State) (vs : List Value), s.seq = .executing → s.count = vs.length → s.regs = vs.map some →
    exec .dump s = .next { s with out := s.out ++ vs.map textOf }

/-- 46_control.md R152: END. -/
def Obligations.EndSucceeds : Prop :=
  ∀ s : State,
    (s.seq = .executing →
      exec .endSession s = .next { s with seq := .terminated, fail := false, err := 0#4 } ∧
      ({ s with seq := .terminated, fail := false, err := 0#4 } : State).statusWord = 0x00000003#32) ∧
    (s.seq = .awaitingCount →
      exec .endSession s = .next { s with seq := .terminated, fail := true, err := 1#4 }) ∧
    (s.seq = .initializing →
      exec .endSession s = .next { s with seq := .terminated, fail := true, err := 2#4 })

/-- 20_memory.md R45: a step that is no reset only appends to OUT, and an event that is not DUMP leaves it as it
was. -/
def Obligations.OutputIsNeverRetracted : Prop :=
  (∀ s t : State, (∀ rest, s.inbox ≠ .reset :: rest) → step s = .next t →
    ∃ ls, t.out = s.out ++ ls) ∧
  (∀ (ev : Event) (s t : State), ev ≠ .cmd .dump → deliver ev s = .next t → t.out = s.out)

/-! ## Frames -/

/-- What SHL, ADD, MUL_UINT64, MUL and POW leave unchanged: every slot but `rd`, the number of slots, NREG, IPTR,
OUT, the parameters and the deliveries; SEQ, FAIL and ERR too unless an error is taken, and then every slot. -/
def Obligations.OperationFrame : Prop :=
  ∀ (rd rs1 rs2 : Int) (k : Word) (s t : State),
    ∀ i ∈ [Instr.shl rd rs1 k, .add rd rs1 rs2, .mulUint64 rd rs1 k, .mul rd rs1 rs2, .pow rd rs1 k],
      exec i s = .next t →
        t.cfg = s.cfg ∧ t.nreg = s.nreg ∧ t.iptr = s.iptr ∧ t.out = s.out ∧ t.inbox = s.inbox ∧
        t.regs.length = s.regs.length ∧
        (∀ j : Nat, (j : Int) ≠ rd → t.slot j = s.slot j) ∧
        ((t.seq = s.seq ∧ t.fail = s.fail ∧ t.err = s.err) ∨
          (t.seq = .terminated ∧ t.fail = true ∧ t.regs = s.regs))

/-- What UINT64, HEX_STRING and CLONE leave unchanged: every slot but slot IPTR, the number of slots, NREG, OUT, the
parameters, the deliveries. One that completes advances IPTR and SEQ (46_control.md R149) and leaves FAIL and ERR;
one that raises an error leaves every slot and IPTR. -/
def Obligations.InitializerFrame : Prop :=
  ∀ (v : Word) (str : List Char8) (j : Int) (s t : State),
    ∀ i ∈ [Instr.uint64 v, .hexString str, .clone j],
      exec i s = .next t →
        t.cfg = s.cfg ∧ t.nreg = s.nreg ∧ t.out = s.out ∧ t.inbox = s.inbox ∧
        t.regs.length = s.regs.length ∧
        (∀ n : Nat, n ≠ s.iptr.toNat → t.slot n = s.slot n) ∧
        ((s.seq = .terminated ∧ t = s) ∨
          (s.seq = .initializing ∧ t.fail = s.fail ∧ t.err = s.err ∧ t.iptr = s.iptr + 1#32 ∧
            t.seq = if s.iptr + 1#32 = s.nreg then .executing else .initializing) ∨
          (t.seq = .terminated ∧ t.fail = true ∧ t.regs = s.regs ∧ t.iptr = s.iptr))

/-- What CNT, DUMP and END leave unchanged: CNT leaves OUT, the parameters and the deliveries, FAIL and ERR too
unless an error is taken; DUMP and END leave every slot, NREG, IPTR, the parameters and the deliveries; END leaves
OUT. -/
def Obligations.SessionCommandFrame : Prop :=
  ∀ (n : Nat) (s t : State),
    (exec (.cnt n) s = .next t →
      t.cfg = s.cfg ∧ t.out = s.out ∧ t.inbox = s.inbox ∧
      ((t.fail = s.fail ∧ t.err = s.err) ∨
        (t.seq = .terminated ∧ t.fail = true ∧ t.nreg = s.nreg ∧ t.iptr = s.iptr ∧ t.regs = s.regs))) ∧
    (exec .dump s = .next t →
      t.cfg = s.cfg ∧ t.nreg = s.nreg ∧ t.iptr = s.iptr ∧ t.regs = s.regs ∧ t.inbox = s.inbox ∧
      ((t.seq = s.seq ∧ t.fail = s.fail ∧ t.err = s.err) ∨
        (t.seq = .terminated ∧ t.fail = true ∧ t.out = s.out))) ∧
    (exec .endSession s = .next t →
      t.cfg = s.cfg ∧ t.nreg = s.nreg ∧ t.iptr = s.iptr ∧ t.regs = s.regs ∧ t.out = s.out ∧
      t.inbox = s.inbox)

/-! ## The canonicalization unit and the print form -/

/-- 40_canonicalization.md R81: the properties of the canonicalization unit. -/
def Obligations.CanonTrimsAndKeepsTheNumber : Prop :=
  ∀ v : Value, v ≠ [] →
    Value.val (canon v) = Value.val v ∧ 1 ≤ (canon v).length ∧ (canon v).length ≤ v.length ∧
    canon (canon v) = canon v ∧ (Value.val v = 0 → canon v = [0x00#8]) ∧
    (0 < Value.val v → (canon v).head? ≠ some 0x00#8) ∧
    (Value.Canonical v ↔ v = [0x00#8] ∨ v.head? ≠ some 0x00#8)

/-- 40_canonicalization.md R82: `canon(v) = minrep(val(v))`; `minrep(x)` is the only canonical Value of `x`, and its
length. -/
def Obligations.MinrepIsTheCanonicalValue : Prop :=
  (∀ v : Value, v ≠ [] → canon v = minrep (Value.val v)) ∧
  (∀ x : Nat, Value.Canonical (minrep x) ∧ Value.val (minrep x) = x ∧
    (∀ v : Value, v ≠ [] → Value.Canonical v → Value.val v = x → v = minrep x) ∧
    (minrep x).length = if x < 256 then 1 else Nat.log 256 x + 1)

/-- 40_canonicalization.md R84: the print form depends on the number only, and shows it. -/
def Obligations.PrintFormShowsTheNumber : Prop :=
  ∀ v w : Value, v ≠ [] → w ≠ [] → (textOf v = textOf w ↔ Value.val v = Value.val w)

/-- 40_canonicalization.md R86: a Value built by HEX_STRING from a valid string and printed with no command in
between prints as `0x` and the padded string in lower case with leading `00` pairs removed while more than one
pair remains; the padded string in lower case is the string itself when that is lower case and of even length. With
no command in between, HEX_STRING writes the last slot, here slot `vs.length` of any N, after any Values `vs` of the
earlier slots, and DUMP prints those lines first. -/
def Obligations.HexStringPrintsBack : Prop :=
  (∀ (str : List Char8) (vs : List Value) (s : State), s.seq = .initializing →
    s.count = vs.length + 1 → s.iptr.toNat = vs.length → s.regs = vs.map some ++ [none] →
    str ≠ [] → str.all isHexDigit = true → (hexStored s.cfg.hexCanon str).length ≤ s.cfg.lMax →
    ∃ t u : State, exec (.hexString str) s = .next t ∧ exec .dump t = .next u ∧
      u.out = s.out ++ vs.map textOf ++ [[0x30#8, 0x78#8] ++
        dropZeroPairs ((if str.length % 2 = 1 then 0x30#8 :: str else str).map lowerHex) ++ [0x0A#8]]) ∧
  (∀ str : List Char8, str.length % 2 = 0 → (∀ c ∈ str, ¬ (0x41 ≤ c.toNat ∧ c.toNat ≤ 0x46)) →
    (if str.length % 2 = 1 then 0x30#8 :: str else str).map lowerHex = str)

/-! ## Encoding, decoding and the text protocol -/

/-- Decode and encode agree for every well-formed command, whatever words follow it, and the decoder takes exactly
the command's words (30_encoding.md R62 to R67). -/
def Obligations.DecodeReadsBackEncode : Prop :=
  ∀ (i : Instr) (ws : List Word), i.wf = true →
    decode (encode i ++ ws) = .cmd i ∧ afterEvent (encode i ++ ws) = ws

/-- 30_encoding.md R65: "at most one row matches", for every header. -/
def Obligations.OpcodeRowsDoNotOverlap : Prop :=
  ∀ (h : Word) (r q : OpcodeRow), r ∈ opcodeRows → q ∈ opcodeRows →
    h &&& r.mask = r.value → h &&& q.mask = q.value → r = q

/-- 30_encoding.md R66: every opcode byte not in the opcode map is reserved, 245 of the 256; a header with a
reserved opcode, or with a must-be-zero bit set, decodes to Unrecognized, and no other header does. -/
def Obligations.ReservedHeadersAreUnrecognized : Prop :=
  (∀ (h : Word) (ws : List Word), decode (h :: ws) = .unrecognized ↔
    h.extractLsb' 56 8 ∉ [0x01#8, 0x10#8, 0x11#8, 0x12#8, 0x20#8, 0x21#8, 0x22#8, 0x23#8, 0x24#8,
      0x30#8, 0x3F#8] ∨
    h.extractLsb' 48 8 ≠ 0#8 ∨
    (h.extractLsb' 56 8 ∈ [0x01#8, 0x10#8, 0x11#8, 0x12#8, 0x30#8, 0x3F#8] ∧ h.extractLsb' 32 16 ≠ 0#16) ∨
    (h.extractLsb' 56 8 ∈ [0x01#8, 0x10#8, 0x30#8, 0x3F#8] ∧ h.extractLsb' 16 16 ≠ 0#16) ∨
    (h.extractLsb' 56 8 ∈ [0x01#8, 0x10#8, 0x12#8, 0x20#8, 0x22#8, 0x24#8, 0x30#8, 0x3F#8] ∧
      h.extractLsb' 0 16 ≠ 0#16)) ∧
  ((List.range 256).filter fun b =>
    decode [BitVec.ofNat 64 (b * 2 ^ 56)] == .unrecognized).length = 245

/-- Words of the binary port written out from 30_encoding.md R62 to R67 (95_test_vectors.md §10) decode to the events
they stand for. -/
def Obligations.PortWordsDecodeAsListed : Prop :=
  decode [] = .eoi ∧
  decode [0x0100000000000000#64, 2#64] = .cmd (.cnt 2) ∧
  decode [0x0100000000000000#64] = .truncated ∧
  decode [0x1100000000000003#64, 0x61626300FFFFFFFF#64] = .cmd (.hexString [0x61#8, 0x62#8, 0x63#8]) ∧
  decode [0x1200000000010000#64] = .cmd (.clone 1) ∧
  decode [0x2000000100010000#64, 4#64] = .cmd (.shl 1 1 4#64) ∧
  decode [0x2100000200000001#64] = .cmd (.add 2 0 1) ∧
  decode [0x2101000000000001#64] = .unrecognized ∧
  decode [0x2200FFFF00010000#64, 2#64] = .cmd (.mulUint64 65535 1 2#64) ∧
  decode [0x2300000200000001#64] = .cmd (.mul 2 0 1) ∧
  decode [0x2400000000000000#64, 5#64] = .cmd (.pow 0 0 5#64) ∧
  decode [0x3000000000000000#64] = .cmd .dump ∧
  decode [0x3F00000000000000#64] = .cmd .endSession

/-- A step runs the decoded instruction: when the next delivery is port words that decode to a command, the step is
`exec` of it in the state with those words taken (46_control.md R145, R147; 30_encoding.md R67); whatever event the
words decode to, the lines of text deliver, or the host delivers as a record, the step is the sequencer's on that
event. That deliveries pend in `inbox`, and in which form, is the model's own (log entries 2 and 3). -/
def Obligations.StepRunsTheDecodedCommand : Prop :=
  (∀ (s : State) (ws : List Word) (rest : List Delivery), s.inbox = .port ws :: rest →
    let t := { s with inbox := if afterEvent ws = [] then rest else .port (afterEvent ws) :: rest }
    (∀ i, decode ws = .cmd i → step s = exec i t) ∧ step s = deliver (decode ws) t) ∧
  (∀ (s : State) (ls : List Line) (rest : List Delivery), s.inbox = .text ls :: rest →
    let left := (textEvent s.seq ls).2
    let t := { s with inbox := if left = [] then rest else .text left :: rest }
    (∀ i, (textEvent s.seq ls).1 = .cmd i → step s = exec i t) ∧
      step s = deliver (textEvent s.seq ls).1 t) ∧
  (∀ (s : State) (ev : Event) (rest : List Delivery), s.inbox = .event ev :: rest →
    (∀ i, ev = .cmd i → step s = exec i { s with inbox := rest }) ∧
      step s = deliver ev { s with inbox := rest })

/-- 46_control.md R145: the core does nothing on its own: with nothing delivered a step changes nothing; with a
delivery that is no reset it takes exactly one event, the one `fetch` finds: the event delivered, the one the port
words decode to, or the one the lines deliver, and what is left behind it is the later deliveries with the words or
lines the event did not take in front. That deliveries pend in `inbox` is the model's own (log entry 2). -/
def Obligations.CoreStepsOnlyOnHostEvents : Prop :=
  (∀ s : State, s.inbox = [] → step s = .next s) ∧
  (∀ (s : State) (d : Delivery) (rest : List Delivery), s.inbox = d :: rest → d ≠ .reset →
    ∃ (ev : Event) (ds : List Delivery), fetch s.seq s.inbox = .event ev ds ∧
      step s = deliver ev { s with inbox := ds } ∧
      (∀ e, d = .event e → ev = e ∧ ds = rest) ∧
      (∀ ws, d = .port ws → ev = decode ws ∧
        ds = (if ws.length ≤ eventWords ws then [] else [.port (ws.drop (eventWords ws))]) ++ rest ∧
        (ws ≠ [] → 0 < eventWords ws)) ∧
      (∀ ls, d = .text ls → ev = (textEvent s.seq ls).1 ∧
        ∃ n, n ≤ 2 ∧ (ls ≠ [] → 0 < n) ∧
          ds = (if ls.length ≤ n then [] else [.text (ls.drop n)]) ++ rest))

/-- 30_encoding.md R58: MUL and POW are no tokens of the text protocol, nor is CNT on an opcode line. -/
def Obligations.TextNeverDeliversMulOrPow : Prop :=
  ∀ (seq : Seq) (ls rest : List Line) (i : Instr), textEvent seq ls = (.cmd i, rest) →
    (∀ rd rs1 rs2, i ≠ .mul rd rs1 rs2) ∧ (∀ rd rs1 k, i ≠ .pow rd rs1 k) ∧
    (seq ≠ .awaitingCount → ∀ n, i ≠ .cnt n) ∧
    (seq = .awaitingCount → ∃ n, i = .cnt n)

/-- 30_encoding.md R57, R58, R60: the lines that spell a command deliver that command, with every operand at every
value, and no line after them is taken. -/
def Obligations.TextReadsBackTextLines : Prop :=
  ∀ (i : Instr) (ls rest : List Line), textLines i = some ls →
    (∀ n, i = .cnt n → textEvent .awaitingCount (ls ++ rest) = (.cmd i, rest)) ∧
    ((∀ n, i ≠ .cnt n) → ∀ seq, seq ≠ .awaitingCount → textEvent seq (ls ++ rest) = (.cmd i, rest))

/-- 30_encoding.md R60: a UINT64 literal or MUL_UINT64 scalar above `2^64 − 1` delivers Malformed, such a SHL amount is
delivered as `2^64 − 1`, an argument line that is missing because input ends delivers Truncated. That the front end
does so in every sequencer state but AWAITING_COUNT, also for an operation's token in INITIALIZING or an initializer's
in EXECUTING, is the model's own reading (log entry 11, DEDUCED, unsafe for the error code of such input). -/
def Obligations.TextChecksItsNumerals : Prop :=
  ∀ (seq : Seq) (n : Nat) (rd rs1 : Int) (rest : List Line), seq ≠ .awaitingCount → 2 ^ 64 ≤ n →
    textEvent seq (Token.uint64.spelling :: decimal n :: rest) = (.malformed, rest) ∧
    textEvent seq (Token.mulUint64.spelling ::
      argumentLine (decimalIndex rd) (decimalIndex rs1) (decimal n) :: rest) = (.malformed, rest) ∧
    textEvent seq (Token.shl.spelling ::
      argumentLine (decimalIndex rd) (decimalIndex rs1) (decimal n) :: rest) =
        (.cmd (.shl rd rs1 0xFFFFFFFFFFFFFFFF#64), rest) ∧
    (∀ t ∈ allTokens, t.hasArgument = true → textEvent seq [t.spelling] = (.truncated, []))

/-- 70_reset_and_hazards.md R187: from reset, CNT with a legal count and then exactly that many initializers, each a
literal, a valid string that fits or a copy of an earlier slot, lead to EXECUTING with every slot holding its Value.
That the commands stand in `inbox` before the first step and are used up there is the model's own (log entry 2, DESIGN
CHOICE). -/
def Obligations.BootReachesExecuting : Prop :=
  ∀ (p : Params) (inits : List Instr), inits.length ≤ p.nMax.val →
    (∀ (i : Nat) (ini : Instr), inits[i]? = some ini → ini.Initializes p i) →
    ∃ t : State,
      Host.Core.run Sys2Proof.core (inits.length + 1)
        { State.resetWith p with
          inbox := (.cnt inits.length :: inits).map fun c => .event (.cmd c) } = .next t ∧
      t.seq = .executing ∧ t.count = inits.length ∧ t.iptr = t.nreg ∧ t.inbox = [] ∧
      (∀ i v, inits[i]? = some (.uint64 v) → t.slot i = some (minrep v.toNat)) ∧
      (∀ i str, inits[i]? = some (.hexString str) → t.slot i = some (hexStored p.hexCanon str)) ∧
      (∀ (i : Nat) (j : Int), inits[i]? = some (.clone j) → t.slot i = t.slot j.toNat) ∧
      ∀ i, i < inits.length → ∃ v, t.slot i = some v

/-- 30_encoding.md R61, R64: the opcode byte alone decides how many words the event takes, whatever the other bits of
the header, so a header with a must-be-zero bit set takes its payload words with it: one after CNT, UINT64, SHL,
MUL_UINT64 and POW, `ceil(LEN/8)` after HEX_STRING, none after CLONE, ADD, MUL, DUMP and END. None after a reserved
opcode byte is the model's own (log entry 4, DESIGN CHOICE). -/
def Obligations.OpcodeByteDecidesTheLength : Prop :=
  ∀ (h : Word) (ws : List Word),
    (h.extractLsb' 56 8 ∈ [0x01#8, 0x10#8, 0x20#8, 0x22#8, 0x24#8] → afterEvent (h :: ws) = ws.drop 1) ∧
    (h.extractLsb' 56 8 = 0x11#8 →
      afterEvent (h :: ws) = ws.drop (((h.extractLsb' 0 32).toNat + 7) / 8)) ∧
    (h.extractLsb' 56 8 ∈ [0x12#8, 0x21#8, 0x23#8, 0x30#8, 0x3F#8] → afterEvent (h :: ws) = ws) ∧
    (h.extractLsb' 56 8 ∉ [0x01#8, 0x10#8, 0x11#8, 0x12#8, 0x20#8, 0x21#8, 0x22#8, 0x23#8, 0x24#8,
      0x30#8, 0x3F#8] → decode (h :: ws) = .unrecognized ∧ afterEvent (h :: ws) = ws)

/-- 30_encoding.md R58, R59: in a sequencer state that reads opcode lines, a line that is no token of the text
protocol delivers Unrecognized. That a line is matched whole and never trimmed, so that a token with white space
around it and the empty line are no tokens, is the model's reading (log entry 10), and that such a line takes no line
after it is the model's own (log entry 16, DESIGN CHOICE). -/
def Obligations.OtherTokensAreUnrecognized : Prop :=
  (∀ (seq : Seq) (l : Line) (rest : List Line), seq ≠ .awaitingCount →
    l ∉ [ascii ['U', 'I', 'N', 'T', '6', '4'], ascii ['H', 'E', 'X', '_', 'S', 'T', 'R', 'I', 'N', 'G'],
      ascii ['C', 'L', 'O', 'N', 'E'], ascii ['S', 'H', 'L'], ascii ['A', 'D', 'D'],
      ascii ['M', 'U', 'L', '_', 'U', 'I', 'N', 'T', '6', '4'], ascii ['D', 'U', 'M', 'P'],
      ascii ['E', 'N', 'D']] →
    textEvent seq (l :: rest) = (.unrecognized, rest)) ∧
  (∀ (seq : Seq) (rest : List Line), seq ≠ .awaitingCount →
    textEvent seq (ascii ['M', 'U', 'L'] :: rest) = (.unrecognized, rest) ∧
    textEvent seq (ascii ['P', 'O', 'W'] :: rest) = (.unrecognized, rest) ∧
    textEvent seq (ascii ['C', 'N', 'T'] :: rest) = (.unrecognized, rest))
end

