-- ==== Sys2Proof/Laws/Decode.lean ====
section
/-! SUPPORT. One lemma per function of the port: what the opcode byte says, and how many words an event takes. -/

namespace Sys2Proof

@[simp] theorem fieldOP_and (h m : Word) : fieldOP (h &&& m) = fieldOP h &&& fieldOP m := by
  apply BitVec.eq_of_getLsbD_eq
  intro i hi
  simp [fieldOP, hi]

/-- Every row's mask takes the whole opcode byte (30_encoding.md R65). -/
theorem fieldOP_mask : ∀ r ∈ opcodeRows, fieldOP r.mask = BitVec.allOnes 8 := by decide

/-- No two rows have the same opcode byte, so the byte alone names the row's opcode (30_encoding.md R64, R65). -/
theorem find_opcodeByte : ∀ r ∈ opcodeRows,
    ((opcodeRows.find? fun q => fieldOP q.value == fieldOP r.value).map (·.op)) = some r.op := by
  decide

/-- A header that decodes to a row has that row's opcode byte. -/
theorem fieldOP_of_matches {r : OpcodeRow} {h : Word} (hr : r ∈ opcodeRows) (hm : r.matches h = true) :
    fieldOP h = fieldOP r.value := by
  have e : h &&& r.mask = r.value := by simpa [OpcodeRow.matches] using hm
  rw [← e, fieldOP_and, fieldOP_mask r hr, BitVec.and_allOnes]

/-- A header that decodes to a command has the opcode byte of that command. -/
theorem opcodeByte_of_opcodeOf {h : Word} {op : Opcode} (ho : opcodeOf h = some op) :
    opcodeByte h = some op := by
  obtain ⟨r, hf, rfl⟩ := Option.map_eq_some_iff.mp ho
  have hr := List.mem_of_find?_eq_some hf
  have hm : r.matches h = true := by simpa using List.find?_some hf
  simp only [opcodeByte, fieldOP_of_matches hr hm]
  exact find_opcodeByte r hr

@[simp] theorem eventWords_nil : eventWords [] = 0 := rfl

/-- A command takes the words of its opcode (30_encoding.md R64). -/
theorem eventWords_of_opcodeOf {h : Word} {op : Opcode} (ho : opcodeOf h = some op) (ws : List Word) :
    eventWords (h :: ws) = commandWords op h := by
  simp [eventWords, opcodeByte_of_opcodeOf ho]

theorem commandWords_pos (op : Opcode) (h : Word) : 0 < commandWords op h := by
  cases op <;> simp [commandWords]

/-- Every event takes its header at least. -/
theorem eventWords_pos (h : Word) (ws : List Word) : 0 < eventWords (h :: ws) := by
  simp only [eventWords]
  split
  · exact Nat.one_pos
  · exact commandWords_pos _ _

end Sys2Proof
end

