-- ==== Sys2Proof/Laws/State.lean ====
section
/-! SUPPORT. The fields of the state after each named update: one lemma per field per update, true by rfl,
so that no proof unfolds a record update. -/

namespace Sys2Proof.Machine

variable (s : State)

@[simp] theorem State.raise_cfg (k : ErrorKind) : (s.raise k).cfg = s.cfg := rfl
@[simp] theorem State.raise_seq (k : ErrorKind) : (s.raise k).seq = .terminated := rfl
@[simp] theorem State.raise_fail (k : ErrorKind) : (s.raise k).fail = true := rfl
@[simp] theorem State.raise_err (k : ErrorKind) : (s.raise k).err = k.code := rfl
@[simp] theorem State.raise_nreg (k : ErrorKind) : (s.raise k).nreg = s.nreg := rfl
@[simp] theorem State.raise_iptr (k : ErrorKind) : (s.raise k).iptr = s.iptr := rfl
@[simp] theorem State.raise_regs (k : ErrorKind) : (s.raise k).regs = s.regs := rfl
@[simp] theorem State.raise_out (k : ErrorKind) : (s.raise k).out = s.out := rfl
@[simp] theorem State.raise_inbox (k : ErrorKind) : (s.raise k).inbox = s.inbox := rfl

@[simp] theorem State.writeSlot_cfg (i : Nat) (v : Value) : (s.writeSlot i v).cfg = s.cfg := rfl
@[simp] theorem State.writeSlot_seq (i : Nat) (v : Value) : (s.writeSlot i v).seq = s.seq := rfl
@[simp] theorem State.writeSlot_fail (i : Nat) (v : Value) : (s.writeSlot i v).fail = s.fail := rfl
@[simp] theorem State.writeSlot_err (i : Nat) (v : Value) : (s.writeSlot i v).err = s.err := rfl
@[simp] theorem State.writeSlot_nreg (i : Nat) (v : Value) : (s.writeSlot i v).nreg = s.nreg := rfl
@[simp] theorem State.writeSlot_iptr (i : Nat) (v : Value) : (s.writeSlot i v).iptr = s.iptr := rfl
@[simp] theorem State.writeSlot_regs (i : Nat) (v : Value) : (s.writeSlot i v).regs = s.regs.set i (some v) := rfl
@[simp] theorem State.writeSlot_out (i : Nat) (v : Value) : (s.writeSlot i v).out = s.out := rfl
@[simp] theorem State.writeSlot_inbox (i : Nat) (v : Value) : (s.writeSlot i v).inbox = s.inbox := rfl

@[simp] theorem State.emit_cfg (ls : List Line) : (s.emit ls).cfg = s.cfg := rfl
@[simp] theorem State.emit_seq (ls : List Line) : (s.emit ls).seq = s.seq := rfl
@[simp] theorem State.emit_fail (ls : List Line) : (s.emit ls).fail = s.fail := rfl
@[simp] theorem State.emit_err (ls : List Line) : (s.emit ls).err = s.err := rfl
@[simp] theorem State.emit_nreg (ls : List Line) : (s.emit ls).nreg = s.nreg := rfl
@[simp] theorem State.emit_iptr (ls : List Line) : (s.emit ls).iptr = s.iptr := rfl
@[simp] theorem State.emit_regs (ls : List Line) : (s.emit ls).regs = s.regs := rfl
@[simp] theorem State.emit_out (ls : List Line) : (s.emit ls).out = s.out ++ ls := rfl
@[simp] theorem State.emit_inbox (ls : List Line) : (s.emit ls).inbox = s.inbox := rfl

@[simp] theorem State.advance_cfg : (s.advance).cfg = s.cfg := rfl
@[simp] theorem State.advance_seq : (s.advance).seq = if s.iptr + 1#32 = s.nreg then .executing else s.seq := rfl
@[simp] theorem State.advance_fail : (s.advance).fail = s.fail := rfl
@[simp] theorem State.advance_err : (s.advance).err = s.err := rfl
@[simp] theorem State.advance_nreg : (s.advance).nreg = s.nreg := rfl
@[simp] theorem State.advance_iptr : (s.advance).iptr = s.iptr + 1#32 := rfl
@[simp] theorem State.advance_regs : (s.advance).regs = s.regs := rfl
@[simp] theorem State.advance_out : (s.advance).out = s.out := rfl
@[simp] theorem State.advance_inbox : (s.advance).inbox = s.inbox := rfl

@[simp] theorem State.initSlot_cfg (v : Value) : (s.initSlot v).cfg = s.cfg := rfl
@[simp] theorem State.initSlot_seq (v : Value) : (s.initSlot v).seq = if s.iptr + 1#32 = s.nreg then .executing else s.seq := rfl
@[simp] theorem State.initSlot_fail (v : Value) : (s.initSlot v).fail = s.fail := rfl
@[simp] theorem State.initSlot_err (v : Value) : (s.initSlot v).err = s.err := rfl
@[simp] theorem State.initSlot_nreg (v : Value) : (s.initSlot v).nreg = s.nreg := rfl
@[simp] theorem State.initSlot_iptr (v : Value) : (s.initSlot v).iptr = s.iptr + 1#32 := rfl
@[simp] theorem State.initSlot_regs (v : Value) : (s.initSlot v).regs = s.regs.set s.iptr.toNat (some v) := rfl
@[simp] theorem State.initSlot_out (v : Value) : (s.initSlot v).out = s.out := rfl
@[simp] theorem State.initSlot_inbox (v : Value) : (s.initSlot v).inbox = s.inbox := rfl

@[simp] theorem State.hostReset_cfg : (s.hostReset).cfg = s.cfg := rfl
@[simp] theorem State.hostReset_seq : (s.hostReset).seq = .awaitingCount := rfl
@[simp] theorem State.hostReset_fail : (s.hostReset).fail = false := rfl
@[simp] theorem State.hostReset_err : (s.hostReset).err = 0#4 := rfl
@[simp] theorem State.hostReset_nreg : (s.hostReset).nreg = 0#32 := rfl
@[simp] theorem State.hostReset_iptr : (s.hostReset).iptr = 0#32 := rfl
@[simp] theorem State.hostReset_regs : (s.hostReset).regs = [] := rfl
@[simp] theorem State.hostReset_out : (s.hostReset).out = [] := rfl
@[simp] theorem State.hostReset_inbox : (s.hostReset).inbox = s.inbox := rfl

@[simp] theorem State.withInbox_cfg (ds : List Delivery) : (s.withInbox ds).cfg = s.cfg := rfl
@[simp] theorem State.withInbox_seq (ds : List Delivery) : (s.withInbox ds).seq = s.seq := rfl
@[simp] theorem State.withInbox_fail (ds : List Delivery) : (s.withInbox ds).fail = s.fail := rfl
@[simp] theorem State.withInbox_err (ds : List Delivery) : (s.withInbox ds).err = s.err := rfl
@[simp] theorem State.withInbox_nreg (ds : List Delivery) : (s.withInbox ds).nreg = s.nreg := rfl
@[simp] theorem State.withInbox_iptr (ds : List Delivery) : (s.withInbox ds).iptr = s.iptr := rfl
@[simp] theorem State.withInbox_regs (ds : List Delivery) : (s.withInbox ds).regs = s.regs := rfl
@[simp] theorem State.withInbox_out (ds : List Delivery) : (s.withInbox ds).out = s.out := rfl
@[simp] theorem State.withInbox_inbox (ds : List Delivery) : (s.withInbox ds).inbox = ds := rfl

@[simp] theorem State.resetWith_cfg (p : Params) : (State.resetWith p).cfg = p := rfl
@[simp] theorem State.resetWith_seq (p : Params) : (State.resetWith p).seq = .awaitingCount := rfl
@[simp] theorem State.resetWith_fail (p : Params) : (State.resetWith p).fail = false := rfl
@[simp] theorem State.resetWith_err (p : Params) : (State.resetWith p).err = 0#4 := rfl
@[simp] theorem State.resetWith_nreg (p : Params) : (State.resetWith p).nreg = 0#32 := rfl
@[simp] theorem State.resetWith_iptr (p : Params) : (State.resetWith p).iptr = 0#32 := rfl
@[simp] theorem State.resetWith_regs (p : Params) : (State.resetWith p).regs = [] := rfl
@[simp] theorem State.resetWith_out (p : Params) : (State.resetWith p).out = [] := rfl
@[simp] theorem State.resetWith_inbox (p : Params) : (State.resetWith p).inbox = [] := rfl

/-! The views of the state after each update. -/

@[simp] theorem State.raise_slot (k : ErrorKind) (i : Nat) : (s.raise k).slot i = s.slot i := rfl
@[simp] theorem State.raise_count (k : ErrorKind) : (s.raise k).count = s.count := rfl
@[simp] theorem State.writeSlot_count (i : Nat) (v : Value) : (s.writeSlot i v).count = s.count := rfl
@[simp] theorem State.emit_slot (ls : List Line) (i : Nat) : (s.emit ls).slot i = s.slot i := rfl
@[simp] theorem State.emit_count (ls : List Line) : (s.emit ls).count = s.count := rfl
@[simp] theorem State.advance_slot (i : Nat) : s.advance.slot i = s.slot i := rfl
@[simp] theorem State.advance_count : s.advance.count = s.count := rfl
@[simp] theorem State.initSlot_count (v : Value) : (s.initSlot v).count = s.count := rfl
@[simp] theorem State.withInbox_slot (ds : List Delivery) (i : Nat) :
    (s.withInbox ds).slot i = s.slot i := rfl
@[simp] theorem State.withInbox_count (ds : List Delivery) : (s.withInbox ds).count = s.count := rfl

/-- The slot just written holds the Value written, where the register file has the slot. -/
theorem State.writeSlot_slot_self {i : Nat} (h : i < s.regs.length) (v : Value) :
    (s.writeSlot i v).slot i = some v := by
  simp [State.slot, h]

/-- "A write to one slot never changes another slot" (10_state.md R25). -/
theorem State.writeSlot_slot_ne {i j : Nat} (h : i ≠ j) (v : Value) :
    (s.writeSlot i v).slot j = s.slot j := by
  simp [State.slot, List.getElem?_set_ne h]

/-- A slot that holds a Value is a slot of the register file. -/
theorem State.slot_lt {i : Nat} {v : Value} (h : s.slot i = some v) : i < s.regs.length := by
  by_contra hn
  simp [State.slot, List.getElem?_eq_none (Nat.le_of_not_lt hn)] at h

end Sys2Proof.Machine
end

