-- ==== Sys2Proof/Laws/Ops.lean ====
section
/-! SUPPORT. One lemma for each shared operation that says what it can do: callers cite it and never
unfold the operation. -/

namespace Sys2Proof.Machine

variable {s t : State}

@[simp] theorem attempt_ok (s t : State) : attempt s (.ok t) = .next t := rfl

@[simp] theorem attempt_error (s : State) (k : ErrorKind) : attempt s (.error k) = .next (s.raise k) := rfl

/-- A body's end: the state it made, or the error taken from the state before it. -/
theorem attempt_next {body : Except ErrorKind State} (h : attempt s body = .next t) :
    body = .ok t ∨ ∃ k, body = .error k ∧ t = s.raise k := by
  cases body with
  | ok u => exact .inl (by simpa using h)
  | error k => exact .inr ⟨k, rfl, by simpa using h.symm⟩

theorem asOperation_executing (h : s.seq = .executing) (body : Except ErrorKind State) :
    asOperation s body = attempt s body := by
  simp [asOperation, h]

theorem asInitializer_initializing (h : s.seq = .initializing) (body : Except ErrorKind State) :
    asInitializer s body = attempt s body := by
  simp [asInitializer, h]

theorem asCount_awaitingCount (h : s.seq = .awaitingCount) (body : Except ErrorKind State) :
    asCount s body = attempt s body := by
  simp [asCount, h]

/-- What an operation can do, in every sequencer state (46_control.md R147). -/
theorem asOperation_next {body : Except ErrorKind State} (h : asOperation s body = .next t) :
    (s.seq = .terminated ∧ t = s) ∨ (s.seq ≠ .terminated ∧ ∃ k, t = s.raise k) ∨
      (s.seq = .executing ∧ body = .ok t) := by
  unfold asOperation at h
  split at h <;> rename_i hq
  · exact .inr (.inl ⟨by simp [hq], _, by simpa using h.symm⟩)
  · exact .inr (.inl ⟨by simp [hq], _, by simpa using h.symm⟩)
  · obtain hb | ⟨k, _, rfl⟩ := attempt_next h
    · exact .inr (.inr ⟨hq, hb⟩)
    · exact .inr (.inl ⟨by simp [hq], k, rfl⟩)
  · exact .inl ⟨hq, by simpa using h.symm⟩

/-- What an initializer can do, in every sequencer state (46_control.md R147). -/
theorem asInitializer_next {body : Except ErrorKind State} (h : asInitializer s body = .next t) :
    (s.seq = .terminated ∧ t = s) ∨ (s.seq ≠ .terminated ∧ ∃ k, t = s.raise k) ∨
      (s.seq = .initializing ∧ body = .ok t) := by
  unfold asInitializer at h
  split at h <;> rename_i hq
  · exact .inr (.inl ⟨by simp [hq], _, by simpa using h.symm⟩)
  · obtain hb | ⟨k, _, rfl⟩ := attempt_next h
    · exact .inr (.inr ⟨hq, hb⟩)
    · exact .inr (.inl ⟨by simp [hq], k, rfl⟩)
  · exact .inr (.inl ⟨by simp [hq], _, by simpa using h.symm⟩)
  · exact .inl ⟨hq, by simpa using h.symm⟩

/-- What CNT can do, in every sequencer state (46_control.md R147). -/
theorem asCount_next {body : Except ErrorKind State} (h : asCount s body = .next t) :
    (s.seq = .terminated ∧ t = s) ∨ (s.seq ≠ .terminated ∧ ∃ k, t = s.raise k) ∨
      (s.seq = .awaitingCount ∧ body = .ok t) := by
  unfold asCount at h
  split at h <;> rename_i hq
  · obtain hb | ⟨k, _, rfl⟩ := attempt_next h
    · exact .inr (.inr ⟨hq, hb⟩)
    · exact .inr (.inl ⟨by simp [hq], k, rfl⟩)
  · exact .inr (.inl ⟨by simp [hq], _, by simpa using h.symm⟩)
  · exact .inr (.inl ⟨by simp [hq], _, by simpa using h.symm⟩)
  · exact .inl ⟨hq, by simpa using h.symm⟩

/-- The index check passes exactly on `0 ≤ i < N` (60_exceptions.md R168). -/
theorem checkIndex_ok {i : Int} {n : Nat} (h : s.checkIndex i = .ok n) : i = (n : Int) ∧ n < s.count := by
  unfold State.checkIndex at h
  split at h
  · cases h
  · cases h; omega

theorem checkIndex_of_lt {i : Int} (h0 : 0 ≤ i) (h1 : i < s.count) : s.checkIndex i = .ok i.toNat := by
  simp only [State.checkIndex]
  rw [if_neg (by omega)]

theorem checkIndex_of_out {i : Int} (h : i < 0 ∨ (s.count : Int) ≤ i) :
    s.checkIndex i = .error .indexOutOfRange := if_pos h

/-- A slot is read exactly when it holds a Value (10_state.md R32). -/
theorem readSlot_ok {i : Nat} {v : Value} : s.readSlot i = .ok v ↔ s.slot i = some v := by
  unfold State.readSlot
  split <;> simp_all

theorem readSlot_of_slot {i : Nat} {v : Value} (h : s.slot i = some v) : s.readSlot i = .ok v :=
  readSlot_ok.mpr h

theorem readSlot_of_uninit {i : Nat} (h : s.slot i = none) :
    s.readSlot i = .error .uninitializedRegister := by
  simp [State.readSlot, h]

/-- The end of an operation: the Value stored fits and the slot is written, or CapacityExceeded. -/
theorem storeResult_eq (d : Nat) (r : Value) :
    s.storeResult d r =
      if s.cfg.lMax < r.length then .error .capacityExceeded else .ok (s.writeSlot d r) := by
  unfold State.storeResult State.checkCapacity
  split <;> rfl

/-- What an operation on one source can do where it makes a state. -/
theorem operate1_ok {rd rs1 : Int} {f : Value → Value} (h : s.operate1 rd rs1 f = .ok t) :
    ∃ (d i : Nat) (a : Value), rd = (d : Int) ∧ d < s.count ∧ rs1 = (i : Int) ∧ i < s.count ∧ s.slot i = some a ∧
      (f a).length ≤ s.cfg.lMax ∧ t = s.writeSlot d (f a) := by
  unfold State.operate1 at h
  cases hd : s.checkIndex rd with
  | error k => simp [hd, bind, Except.bind] at h
  | ok d =>
  cases hi : s.checkIndex rs1 with
  | error k => simp [hd, hi, bind, Except.bind] at h
  | ok i =>
  cases ha : s.readSlot i with
  | error k => simp [hd, hi, ha, bind, Except.bind] at h
  | ok a =>
  simp only [hd, hi, ha, bind, Except.bind, storeResult_eq] at h
  split at h
  · cases h
  · cases h
    obtain ⟨e1, l1⟩ := checkIndex_ok hd
    obtain ⟨e2, l2⟩ := checkIndex_ok hi
    exact ⟨d, i, a, e1, l1, e2, l2, readSlot_ok.mp ha, by omega, rfl⟩

/-- What an operation on two sources can do where it makes a state. -/
theorem operate2_ok {rd rs1 rs2 : Int} {f : Value → Value → Value}
    (h : s.operate2 rd rs1 rs2 f = .ok t) :
    ∃ (d i j : Nat) (a b : Value), rd = (d : Int) ∧ d < s.count ∧ rs1 = (i : Int) ∧ i < s.count ∧
      rs2 = (j : Int) ∧ j < s.count ∧ s.slot i = some a ∧ s.slot j = some b ∧
      (f a b).length ≤ s.cfg.lMax ∧ t = s.writeSlot d (f a b) := by
  unfold State.operate2 at h
  cases hd : s.checkIndex rd with
  | error k => simp [hd, bind, Except.bind] at h
  | ok d =>
  cases hi : s.checkIndex rs1 with
  | error k => simp [hd, hi, bind, Except.bind] at h
  | ok i =>
  cases hj : s.checkIndex rs2 with
  | error k => simp [hd, hi, hj, bind, Except.bind] at h
  | ok j =>
  cases ha : s.readSlot i with
  | error k => simp [hd, hi, hj, ha, bind, Except.bind] at h
  | ok a =>
  cases hb : s.readSlot j with
  | error k => simp [hd, hi, hj, ha, hb, bind, Except.bind] at h
  | ok b =>
  simp only [hd, hi, hj, ha, hb, bind, Except.bind, storeResult_eq] at h
  split at h
  · cases h
  · cases h
    obtain ⟨e1, l1⟩ := checkIndex_ok hd
    obtain ⟨e2, l2⟩ := checkIndex_ok hi
    obtain ⟨e3, l3⟩ := checkIndex_ok hj
    exact ⟨d, i, j, a, b, e1, l1, e2, l2, e3, l3, readSlot_ok.mp ha, readSlot_ok.mp hb, by omega, rfl⟩

end Sys2Proof.Machine
end

