-- ==== Sys2Proof/Laws/Meanings.lean ====
section
/-! SUPPORT. What the body of each command makes where it raises no error: one lemma a body, cited
instead of unfolding the meaning. -/

namespace Sys2Proof.Machine

variable {s t : State}

/-- CNT's body (46_control.md R148). -/
theorem countBody_ok {n : Nat} (h : countBody n s = .ok t) :
    n ≤ s.cfg.nMax.val ∧ t = { s with
      nreg := BitVec.ofNat 32 n
      regs := List.replicate n none
      iptr := 0#32
      seq := if n = 0 then .executing else .initializing } := by
  unfold countBody at h
  split at h
  · cases h
  · cases h; exact ⟨by omega, rfl⟩

/-- HEX_STRING's body (41_construction.md R91). -/
theorem hexBody_ok {str : List Char8} (h : hexBody str s = .ok t) :
    str ≠ [] ∧ str.all isHexDigit = true ∧ (hexValue s.cfg.hexCanon str).length ≤ s.cfg.lMax ∧
      t = s.initSlot (hexValue s.cfg.hexCanon str) := by
  unfold hexBody at h
  split at h
  · cases h
  · rename_i hv
    simp only [not_or, Bool.not_eq_false] at hv
    simp only [State.checkCapacity] at h
    split at h
    · cases h
    · cases h
      exact ⟨fun e => hv.1 (by simp [e]), hv.2, by omega, rfl⟩

/-- CLONE's body (41_construction.md R92). -/
theorem cloneBody_ok {j : Int} (h : cloneBody j s = .ok t) :
    ∃ (i : Nat) (v : Value), j = (i : Int) ∧ i < s.count ∧ s.slot i = some v ∧ t = s.initSlot v := by
  unfold cloneBody at h
  cases hi : s.checkIndex j with
  | error k => simp [hi, bind, Except.bind] at h
  | ok i =>
  cases hv : s.readSlot i with
  | error k => simp [hi, hv, bind, Except.bind] at h
  | ok v =>
  simp only [hi, hv, bind, Except.bind, pure, Except.pure, Except.ok.injEq] at h
  obtain ⟨e, l⟩ := checkIndex_ok hi
  exact ⟨i, v, e, l, readSlot_ok.mp hv, h.symm⟩

/-- SHL's body (42_shift.md R100). -/
theorem shlBody_ok {rd rs1 : Int} {k : Word} (h : shlBody rd rs1 k s = .ok t) :
    ∃ (d i : Nat) (a : Value), rd = (d : Int) ∧ d < s.count ∧ rs1 = (i : Int) ∧ i < s.count ∧
      s.slot i = some a ∧ t = s.writeSlot d (shiftLeft a k.toNat) := by
  unfold shlBody at h
  cases hd : s.checkIndex rd with
  | error k => simp [hd, bind, Except.bind] at h
  | ok d =>
  cases hi : s.checkIndex rs1 with
  | error k => simp [hd, hi, bind, Except.bind] at h
  | ok i =>
  cases ha : s.readSlot i with
  | error k => simp [hd, hi, ha, bind, Except.bind] at h
  | ok a =>
  simp only [hd, hi, ha, bind, Except.bind, pure, Except.pure, Except.ok.injEq] at h
  obtain ⟨e1, l1⟩ := checkIndex_ok hd
  obtain ⟨e2, l2⟩ := checkIndex_ok hi
  exact ⟨d, i, a, e1, l1, e2, l2, readSlot_ok.mp ha, h.symm⟩

/-- MUL_UINT64's body (44_multiply.md R120). -/
theorem mulUint64Body_ok {rd rs1 : Int} {k : Word} (h : mulUint64Body rd rs1 k s = .ok t) :
    ∃ (d i : Nat) (a : Value), rd = (d : Int) ∧ d < s.count ∧ rs1 = (i : Int) ∧ i < s.count ∧
      s.slot (multiplicandSlot s.cfg.smulSource d i) = some a ∧
      (scalarProduct s.cfg.smulCanon a k.toNat).length ≤ s.cfg.lMax ∧
      t = s.writeSlot d (scalarProduct s.cfg.smulCanon a k.toNat) := by
  unfold mulUint64Body at h
  cases hd : s.checkIndex rd with
  | error k => simp [hd, bind, Except.bind] at h
  | ok d =>
  cases hi : s.checkIndex rs1 with
  | error k => simp [hd, hi, bind, Except.bind] at h
  | ok i =>
  cases ha : s.readSlot (multiplicandSlot s.cfg.smulSource d i) with
  | error k => simp [hd, hi, ha, bind, Except.bind] at h
  | ok a =>
  simp only [hd, hi, ha, bind, Except.bind, storeResult_eq] at h
  split at h
  · cases h
  · cases h
    obtain ⟨e1, l1⟩ := checkIndex_ok hd
    obtain ⟨e2, l2⟩ := checkIndex_ok hi
    exact ⟨d, i, a, e1, l1, e2, l2, readSlot_ok.mp ha, by omega, rfl⟩

/-- DUMP's body changes OUT only (46_control.md R151). -/
theorem dumpBody_ok (h : dumpBody s = .ok t) :
    ∃ ls, s.linesFrom s.count 0 = .ok ls ∧ t = s.emit ls := by
  unfold dumpBody at h
  cases hl : s.linesFrom s.count 0 with
  | error k => simp [hl, bind, Except.bind] at h
  | ok ls =>
  simp only [hl, bind, Except.bind, pure, Except.pure, Except.ok.injEq] at h
  exact ⟨ls, rfl, h.symm⟩

/-- The lines of the slots are the text forms of what they hold, in index order (46_control.md R151). -/
theorem linesFrom_ok {m i : Nat} {ls : List Line} (h : s.linesFrom m i = .ok ls) :
    ls.length = m ∧ ∀ j, j < m → ∃ v, s.slot (i + j) = some v ∧ ls[j]? = some (textOf v) := by
  induction m generalizing i ls with
  | zero => cases h; exact ⟨rfl, by omega⟩
  | succ m ih =>
    unfold State.linesFrom at h
    cases hv : s.readSlot i with
    | error k => simp [hv, bind, Except.bind] at h
    | ok v =>
    cases hl : s.linesFrom m (i + 1) with
    | error k => simp [hv, hl, bind, Except.bind] at h
    | ok rest =>
    simp only [hv, hl, bind, Except.bind, pure, Except.pure, Except.ok.injEq] at h
    subst h
    obtain ⟨hlen, hget⟩ := ih hl
    refine ⟨by simp [hlen], fun j hj => ?_⟩
    cases j with
    | zero => exact ⟨v, by simpa using readSlot_ok.mp hv, by simp⟩
    | succ j =>
      obtain ⟨w, hw, hg⟩ := hget j (by omega)
      exact ⟨w, by rw [show i + (j + 1) = i + 1 + j by omega]; exact hw, by simpa using hg⟩

/-- The body each command runs where its sequencer state allows it. -/
def bodyOf (i : Instr) (s : State) : Except ErrorKind State :=
  match i with
  | .cnt n => countBody n s
  | .uint64 v => .ok (s.initSlot (minrep v.toNat))
  | .hexString str => hexBody str s
  | .clone j => cloneBody j s
  | .shl rd rs1 k => shlBody rd rs1 k s
  | .add rd rs1 rs2 => s.operate2 rd rs1 rs2 addValues
  | .mulUint64 rd rs1 k => mulUint64Body rd rs1 k s
  | .mul rd rs1 rs2 => s.operate2 rd rs1 rs2 mulValues
  | .pow rd rs1 k => s.operate1 rd rs1 fun a => power s.cfg.powMode a k.toNat
  | .dump => dumpBody s
  | .endSession => endBody s

/-- What a command can do: nothing after TERMINATED, an error taken from the state before it, or its
body's effect. -/
theorem exec_next {i : Instr} (h : exec i s = .next t) :
    (s.seq = .terminated ∧ t = s) ∨ (s.seq ≠ .terminated ∧ ∃ k, t = s.raise k) ∨
      (s.seq ≠ .terminated ∧ bodyOf i s = .ok t) := by
  cases i with
  | cnt n =>
    obtain h | h | ⟨h, b⟩ := asCount_next h
    exacts [.inl h, .inr (.inl h), .inr (.inr ⟨by simp [h], b⟩)]
  | uint64 v =>
    obtain h | h | ⟨h, b⟩ := asInitializer_next h
    exacts [.inl h, .inr (.inl h), .inr (.inr ⟨by simp [h], b⟩)]
  | hexString str =>
    obtain h | h | ⟨h, b⟩ := asInitializer_next h
    exacts [.inl h, .inr (.inl h), .inr (.inr ⟨by simp [h], b⟩)]
  | clone j =>
    obtain h | h | ⟨h, b⟩ := asInitializer_next h
    exacts [.inl h, .inr (.inl h), .inr (.inr ⟨by simp [h], b⟩)]
  | shl rd rs1 k =>
    obtain h | h | ⟨h, b⟩ := asOperation_next h
    exacts [.inl h, .inr (.inl h), .inr (.inr ⟨by simp [h], b⟩)]
  | add rd rs1 rs2 =>
    obtain h | h | ⟨h, b⟩ := asOperation_next h
    exacts [.inl h, .inr (.inl h), .inr (.inr ⟨by simp [h], b⟩)]
  | mulUint64 rd rs1 k =>
    obtain h | h | ⟨h, b⟩ := asOperation_next h
    exacts [.inl h, .inr (.inl h), .inr (.inr ⟨by simp [h], b⟩)]
  | mul rd rs1 rs2 =>
    obtain h | h | ⟨h, b⟩ := asOperation_next h
    exacts [.inl h, .inr (.inl h), .inr (.inr ⟨by simp [h], b⟩)]
  | pow rd rs1 k =>
    obtain h | h | ⟨h, b⟩ := asOperation_next h
    exacts [.inl h, .inr (.inl h), .inr (.inr ⟨by simp [h], b⟩)]
  | dump =>
    obtain h | h | ⟨h, b⟩ := asOperation_next h
    exacts [.inl h, .inr (.inl h), .inr (.inr ⟨by simp [h], b⟩)]
  | endSession =>
    obtain h | h | ⟨h, b⟩ := asOperation_next h
    exacts [.inl h, .inr (.inl h), .inr (.inr ⟨by simp [h], b⟩)]

end Sys2Proof.Machine
end

