-- ==== Sys2Proof/Laws/PerInstr.lean ====
section
/-! SUPPORT. Statements about every instruction as syntax, one lemma per constructor. -/

namespace Sys2Proof

theorem and_append_mask {m n : Nat} (a c : BitVec m) (b d : BitVec n) :
    (a ++ b) &&& (c ++ d) = (a &&& c) ++ (b &&& d) := by
  ext i hi
  simp only [BitVec.getElem_and, BitVec.getElem_append]
  split <;> rfl

theorem append_beq {m n : Nat} (a c : BitVec m) (b d : BitVec n) :
    (a ++ b == c ++ d) = ((a == c) && (b == d)) := by
  rw [Bool.eq_iff_iff]
  simp only [beq_iff_eq, Bool.and_eq_true]
  constructor
  · intro h
    have h' : ∀ i, (a ++ b).getLsbD i = (c ++ d).getLsbD i := by rw [h]; simp
    constructor
    · apply BitVec.eq_of_getLsbD_eq
      intro i hi
      have := h' (i + n)
      simpa [BitVec.getLsbD_append] using this
    · apply BitVec.eq_of_getLsbD_eq
      intro i hi
      have := h' i
      simpa [BitVec.getLsbD_append, hi] using this
  · rintro ⟨rfl, rfl⟩; rfl

/-- A header of the index format against a row of the opcode map, field by field. -/
theorem matches_indexHeader (o : Opcode) (v m : Word) (vo : BitVec 8) (ma mb mc : BitVec 16)
    (hv : v = (vo ++ 0#8 ++ 0#16 ++ 0#16 ++ 0#16 : Word))
    (hm : m = (0xFF#8 ++ 0xFF#8 ++ ma ++ mb ++ mc : Word)) (op : BitVec 8) (rd rs1 rs2 : Int) :
    OpcodeRow.matches ⟨o, v, m⟩ (indexHeader op rd rs1 rs2) =
      ((((op == vo) && (BitVec.ofInt 16 rd &&& ma == 0#16)) &&
        (BitVec.ofInt 16 rs1 &&& mb == 0#16)) && (BitVec.ofInt 16 rs2 &&& mc == 0#16)) := by
  subst hv hm
  unfold OpcodeRow.matches indexHeader
  simp only
  rw [and_append_mask, append_beq, and_append_mask, append_beq, and_append_mask, append_beq,
    and_append_mask, append_beq, show (0xFF#8 : BitVec 8) = BitVec.allOnes 8 by decide,
    BitVec.and_allOnes]
  simp

theorem and_full (x : BitVec 16) : x &&& 0xFFFF#16 = x := by
  rw [show (0xFFFF#16 : BitVec 16) = BitVec.allOnes 16 by decide, BitVec.and_allOnes]

/-! Each row of the opcode map against a header of the index format (30_encoding.md R65). -/

theorem cntRow_matches (op : BitVec 8) (rd rs1 rs2 : Int) :
    OpcodeRow.matches ⟨.cnt, 0x0100000000000000#64, 0xFFFFFFFFFFFFFFFF#64⟩ (indexHeader op rd rs1 rs2) =
      ((op == 0x01#8) && (BitVec.ofInt 16 rd == 0#16) && (BitVec.ofInt 16 rs1 == 0#16) && (BitVec.ofInt 16 rs2 == 0#16)) := by
  rw [matches_indexHeader .cnt _ _ 0x01#8 0xFFFF#16 0xFFFF#16 0xFFFF#16 (by decide) (by decide)]
  simp [and_full]

theorem uint64Row_matches (op : BitVec 8) (rd rs1 rs2 : Int) :
    OpcodeRow.matches ⟨.uint64, 0x1000000000000000#64, 0xFFFFFFFFFFFFFFFF#64⟩ (indexHeader op rd rs1 rs2) =
      ((op == 0x10#8) && (BitVec.ofInt 16 rd == 0#16) && (BitVec.ofInt 16 rs1 == 0#16) && (BitVec.ofInt 16 rs2 == 0#16)) := by
  rw [matches_indexHeader .uint64 _ _ 0x10#8 0xFFFF#16 0xFFFF#16 0xFFFF#16 (by decide) (by decide)]
  simp [and_full]

theorem hexStringRow_matches (op : BitVec 8) (rd rs1 rs2 : Int) :
    OpcodeRow.matches ⟨.hexString, 0x1100000000000000#64, 0xFFFFFFFF00000000#64⟩ (indexHeader op rd rs1 rs2) =
      ((op == 0x11#8) && (BitVec.ofInt 16 rd == 0#16)) := by
  rw [matches_indexHeader .hexString _ _ 0x11#8 0xFFFF#16 0x0000#16 0x0000#16 (by decide) (by decide)]
  simp [and_full]

theorem cloneRow_matches (op : BitVec 8) (rd rs1 rs2 : Int) :
    OpcodeRow.matches ⟨.clone, 0x1200000000000000#64, 0xFFFFFFFF0000FFFF#64⟩ (indexHeader op rd rs1 rs2) =
      ((op == 0x12#8) && (BitVec.ofInt 16 rd == 0#16) && (BitVec.ofInt 16 rs2 == 0#16)) := by
  rw [matches_indexHeader .clone _ _ 0x12#8 0xFFFF#16 0x0000#16 0xFFFF#16 (by decide) (by decide)]
  simp [and_full]

theorem shlRow_matches (op : BitVec 8) (rd rs1 rs2 : Int) :
    OpcodeRow.matches ⟨.shl, 0x2000000000000000#64, 0xFFFF00000000FFFF#64⟩ (indexHeader op rd rs1 rs2) =
      ((op == 0x20#8) && (BitVec.ofInt 16 rs2 == 0#16)) := by
  rw [matches_indexHeader .shl _ _ 0x20#8 0x0000#16 0x0000#16 0xFFFF#16 (by decide) (by decide)]
  simp [and_full]

theorem addRow_matches (op : BitVec 8) (rd rs1 rs2 : Int) :
    OpcodeRow.matches ⟨.add, 0x2100000000000000#64, 0xFFFF000000000000#64⟩ (indexHeader op rd rs1 rs2) =
      ((op == 0x21#8)) := by
  rw [matches_indexHeader .add _ _ 0x21#8 0x0000#16 0x0000#16 0x0000#16 (by decide) (by decide)]
  simp

theorem mulUint64Row_matches (op : BitVec 8) (rd rs1 rs2 : Int) :
    OpcodeRow.matches ⟨.mulUint64, 0x2200000000000000#64, 0xFFFF00000000FFFF#64⟩ (indexHeader op rd rs1 rs2) =
      ((op == 0x22#8) && (BitVec.ofInt 16 rs2 == 0#16)) := by
  rw [matches_indexHeader .mulUint64 _ _ 0x22#8 0x0000#16 0x0000#16 0xFFFF#16 (by decide) (by decide)]
  simp [and_full]

theorem mulRow_matches (op : BitVec 8) (rd rs1 rs2 : Int) :
    OpcodeRow.matches ⟨.mul, 0x2300000000000000#64, 0xFFFF000000000000#64⟩ (indexHeader op rd rs1 rs2) =
      ((op == 0x23#8)) := by
  rw [matches_indexHeader .mul _ _ 0x23#8 0x0000#16 0x0000#16 0x0000#16 (by decide) (by decide)]
  simp

theorem powRow_matches (op : BitVec 8) (rd rs1 rs2 : Int) :
    OpcodeRow.matches ⟨.pow, 0x2400000000000000#64, 0xFFFF00000000FFFF#64⟩ (indexHeader op rd rs1 rs2) =
      ((op == 0x24#8) && (BitVec.ofInt 16 rs2 == 0#16)) := by
  rw [matches_indexHeader .pow _ _ 0x24#8 0x0000#16 0x0000#16 0xFFFF#16 (by decide) (by decide)]
  simp [and_full]

theorem dumpRow_matches (op : BitVec 8) (rd rs1 rs2 : Int) :
    OpcodeRow.matches ⟨.dump, 0x3000000000000000#64, 0xFFFFFFFFFFFFFFFF#64⟩ (indexHeader op rd rs1 rs2) =
      ((op == 0x30#8) && (BitVec.ofInt 16 rd == 0#16) && (BitVec.ofInt 16 rs1 == 0#16) && (BitVec.ofInt 16 rs2 == 0#16)) := by
  rw [matches_indexHeader .dump _ _ 0x30#8 0xFFFF#16 0xFFFF#16 0xFFFF#16 (by decide) (by decide)]
  simp [and_full]

theorem endSessionRow_matches (op : BitVec 8) (rd rs1 rs2 : Int) :
    OpcodeRow.matches ⟨.endSession, 0x3F00000000000000#64, 0xFFFFFFFFFFFFFFFF#64⟩ (indexHeader op rd rs1 rs2) =
      ((op == 0x3F#8) && (BitVec.ofInt 16 rd == 0#16) && (BitVec.ofInt 16 rs1 == 0#16) && (BitVec.ofInt 16 rs2 == 0#16)) := by
  rw [matches_indexHeader .endSession _ _ 0x3F#8 0xFFFF#16 0xFFFF#16 0xFFFF#16 (by decide) (by decide)]
  simp [and_full]

@[simp] theorem opcodeOf_cnt : opcodeOf (indexHeader 0x01#8 0 0 0) = some .cnt := by
  simp [opcodeOf, opcodeRows, cntRow_matches]

@[simp] theorem opcodeOf_uint64 : opcodeOf (indexHeader 0x10#8 0 0 0) = some .uint64 := by
  simp [opcodeOf, opcodeRows, cntRow_matches, uint64Row_matches]

@[simp] theorem opcodeOf_clone (j : Int) : opcodeOf (indexHeader 0x12#8 0 j 0) = some .clone := by
  simp [opcodeOf, opcodeRows, cntRow_matches, uint64Row_matches, hexStringRow_matches, cloneRow_matches]

@[simp] theorem opcodeOf_shl (rd rs1 : Int) : opcodeOf (indexHeader 0x20#8 rd rs1 0) = some .shl := by
  simp [opcodeOf, opcodeRows, cntRow_matches, uint64Row_matches, hexStringRow_matches, cloneRow_matches, shlRow_matches]

@[simp] theorem opcodeOf_add (rd rs1 rs2 : Int) : opcodeOf (indexHeader 0x21#8 rd rs1 rs2) = some .add := by
  simp [opcodeOf, opcodeRows, cntRow_matches, uint64Row_matches, hexStringRow_matches, cloneRow_matches, shlRow_matches, addRow_matches]

@[simp] theorem opcodeOf_mulUint64 (rd rs1 : Int) : opcodeOf (indexHeader 0x22#8 rd rs1 0) = some .mulUint64 := by
  simp [opcodeOf, opcodeRows, cntRow_matches, uint64Row_matches, hexStringRow_matches, cloneRow_matches, shlRow_matches, addRow_matches, mulUint64Row_matches]

@[simp] theorem opcodeOf_mul (rd rs1 rs2 : Int) : opcodeOf (indexHeader 0x23#8 rd rs1 rs2) = some .mul := by
  simp [opcodeOf, opcodeRows, cntRow_matches, uint64Row_matches, hexStringRow_matches, cloneRow_matches, shlRow_matches, addRow_matches, mulUint64Row_matches, mulRow_matches]

@[simp] theorem opcodeOf_pow (rd rs1 : Int) : opcodeOf (indexHeader 0x24#8 rd rs1 0) = some .pow := by
  simp [opcodeOf, opcodeRows, cntRow_matches, uint64Row_matches, hexStringRow_matches, cloneRow_matches, shlRow_matches, addRow_matches, mulUint64Row_matches, mulRow_matches, powRow_matches]

@[simp] theorem opcodeOf_dump : opcodeOf (indexHeader 0x30#8 0 0 0) = some .dump := by
  simp [opcodeOf, opcodeRows, cntRow_matches, uint64Row_matches, hexStringRow_matches, cloneRow_matches, shlRow_matches, addRow_matches, mulUint64Row_matches, mulRow_matches, powRow_matches, dumpRow_matches]

@[simp] theorem opcodeOf_endSession : opcodeOf (indexHeader 0x3F#8 0 0 0) = some .endSession := by
  simp [opcodeOf, opcodeRows, cntRow_matches, uint64Row_matches, hexStringRow_matches, cloneRow_matches, shlRow_matches, addRow_matches, mulUint64Row_matches, mulRow_matches, powRow_matches, dumpRow_matches, endSessionRow_matches]

/-- A HEX_STRING header decodes to its row, whatever the length (30_encoding.md R65). -/
@[simp] theorem opcodeOf_lengthHeader (l : Nat) : opcodeOf (lengthHeader l) = some .hexString := by
  have h : ∀ (o : Opcode) (vo : BitVec 8) (vr mr : BitVec 24) (vl ml : BitVec 32) (v m : Word),
      v = (vo ++ vr ++ vl : Word) → m = (0xFF#8 ++ mr ++ ml : Word) → (0x11#8 == vo) = false →
      OpcodeRow.matches ⟨o, v, m⟩ (lengthHeader l) = false := by
    intro o vo vr mr vl ml v m hv hm hne
    subst hv hm
    simp only [OpcodeRow.matches, lengthHeader]
    rw [and_append_mask, append_beq, and_append_mask, append_beq,
      show (0x11#8 : BitVec 8) &&& 0xFF#8 = 0x11#8 by decide, hne]
    simp
  have h1 := h .cnt 0x01#8 0#24 0xFFFFFF#24 0#32 0xFFFFFFFF#32 0x0100000000000000#64
    0xFFFFFFFFFFFFFFFF#64 (by decide) (by decide) (by decide)
  have h2 := h .uint64 0x10#8 0#24 0xFFFFFF#24 0#32 0xFFFFFFFF#32 0x1000000000000000#64
    0xFFFFFFFFFFFFFFFF#64 (by decide) (by decide) (by decide)
  have h3 : OpcodeRow.matches ⟨.hexString, 0x1100000000000000#64, 0xFFFFFFFF00000000#64⟩
      (lengthHeader l) = true := by
    have hm : (0xFFFFFFFF00000000#64 : Word) = (0xFF#8 ++ 0xFFFFFF#24 ++ 0#32 : Word) := by decide
    have hv : (0x1100000000000000#64 : Word) = (0x11#8 ++ 0#24 ++ 0#32 : Word) := by decide
    simp only [OpcodeRow.matches, lengthHeader]
    rw [hm, hv, and_append_mask, append_beq, and_append_mask, append_beq]
    simp
  simp [opcodeOf, opcodeRows, h1, h2, h3]

theorem fieldLEN_lengthHeader {l : Nat} (h : l < 2 ^ 32) : fieldLEN (lengthHeader l) = l := by
  have e : (lengthHeader l).extractLsb' 0 32 = BitVec.ofNat 32 l := by
    apply BitVec.eq_of_getLsbD_eq
    intro i hi
    simp only [BitVec.getLsbD_extractLsb', hi, decide_true, Bool.true_and, Nat.zero_add, lengthHeader]
    rw [BitVec.getLsbD_append, if_pos hi]
  simp only [fieldLEN, e, BitVec.toNat_ofNat]
  exact Nat.mod_eq_of_lt h

/-- A well-formed command's encoding has the length the opcode map gives its header (30_encoding.md R64). -/
def Laws.EncodedLength.Statement (i : Instr) : Prop :=
  i.wf = true → eventWords (encode i) = (encode i).length

namespace Laws.EncodedLength

theorem cnt (n : Nat) : Statement (.cnt n) := fun _ => eventWords_of_opcodeOf opcodeOf_cnt _
theorem uint64 (v : Word) : Statement (.uint64 v) := fun _ => eventWords_of_opcodeOf opcodeOf_uint64 _
theorem hexString (s : List Char8) : Statement (.hexString s) := fun h => by
  have hl : s.length < 2 ^ 32 := by simpa [Instr.wf] using h
  simp only [encode, eventWords_of_opcodeOf (opcodeOf_lengthHeader _), commandWords,
    fieldLEN_lengthHeader hl, List.length_cons, packChars, List.length_map, List.length_range]
  omega
theorem clone (j : Int) : Statement (.clone j) := fun _ => eventWords_of_opcodeOf (opcodeOf_clone j) _
theorem shl (rd rs1 : Int) (k : Word) : Statement (.shl rd rs1 k) := fun _ =>
  eventWords_of_opcodeOf (opcodeOf_shl rd rs1) _
theorem add (rd rs1 rs2 : Int) : Statement (.add rd rs1 rs2) := fun _ =>
  eventWords_of_opcodeOf (opcodeOf_add rd rs1 rs2) _
theorem mulUint64 (rd rs1 : Int) (k : Word) : Statement (.mulUint64 rd rs1 k) := fun _ =>
  eventWords_of_opcodeOf (opcodeOf_mulUint64 rd rs1) _
theorem mul (rd rs1 rs2 : Int) : Statement (.mul rd rs1 rs2) := fun _ =>
  eventWords_of_opcodeOf (opcodeOf_mul rd rs1 rs2) _
theorem pow (rd rs1 : Int) (k : Word) : Statement (.pow rd rs1 k) := fun _ =>
  eventWords_of_opcodeOf (opcodeOf_pow rd rs1) _
theorem dump : Statement .dump := fun _ => eventWords_of_opcodeOf opcodeOf_dump _
theorem endSession : Statement .endSession := fun _ => eventWords_of_opcodeOf opcodeOf_endSession _

end Laws.EncodedLength

end Sys2Proof
end

