-- ==== Sys2Proof/Laws/Step.lean ====
section
/-! SUPPORT. One lemma per function of the step: what the front ends take from a delivery, and what the step
does with what `fetch` finds. -/

namespace Sys2Proof.Machine

@[simp] theorem fetch_nil (seq : Seq) : fetch seq [] = .idle := rfl

@[simp] theorem fetch_reset (seq : Seq) (rest : List Delivery) :
    fetch seq (.reset :: rest) = .reset rest := rfl

@[simp] theorem fetch_event (seq : Seq) (ev : Event) (rest : List Delivery) :
    fetch seq (.event ev :: rest) = .event ev rest := rfl

@[simp] theorem fetch_port (seq : Seq) (ws : List Word) (rest : List Delivery) :
    fetch seq (.port ws :: rest) = .event (decode ws) (restPort (afterEvent ws) rest) := rfl

@[simp] theorem fetch_text (seq : Seq) (ls : List Line) (rest : List Delivery) :
    fetch seq (.text ls :: rest) =
      .event (textEvent seq ls).1 (restText (textEvent seq ls).2 rest) := rfl

theorem restPort_eq (ws : List Word) (rest : List Delivery) :
    restPort ws rest = if ws = [] then rest else .port ws :: rest := by
  cases ws <;> rfl

theorem restText_eq (ls : List Line) (rest : List Delivery) :
    restText ls rest = if ls = [] then rest else .text ls :: rest := by
  cases ls <;> rfl

/-- An opcode line takes itself and at most one line more (30_encoding.md R57). -/
theorem opcodeEvent_rest (l : Line) (rest : List Line) :
    (opcodeEvent l rest).2 = rest ∨ (opcodeEvent l rest).2 = rest.drop 1 := by
  unfold opcodeEvent
  split
  · exact .inl rfl
  · split
    · cases rest
      · exact .inl rfl
      · exact .inr rfl
    · exact .inl rfl

/-- A text event takes one or two lines from the front, where there are any. -/
theorem textEvent_rest (seq : Seq) (l : Line) (rest : List Line) :
    (textEvent seq (l :: rest)).2 = rest ∨ (textEvent seq (l :: rest)).2 = rest.drop 1 := by
  cases seq
  · exact .inl rfl
  all_goals exact opcodeEvent_rest l rest

/-- All a step can do. -/
theorem step_cases (s : State) :
    (s.inbox = [] ∧ step s = .next s) ∨
    (∃ rest, s.inbox = .reset :: rest ∧ step s = .next (s.withInbox rest).hostReset) ∨
    (∃ ev rest, fetch s.seq s.inbox = .event ev rest ∧ step s = deliver ev (s.withInbox rest)) := by
  match h : s.inbox with
  | [] => exact .inl ⟨rfl, by simp [step, h]⟩
  | .reset :: rest => exact .inr (.inl ⟨rest, rfl, by simp [step, h]⟩)
  | .event ev :: rest => exact .inr (.inr ⟨ev, rest, rfl, by simp [step, h]⟩)
  | .port ws :: rest => exact .inr (.inr ⟨_, _, rfl, by simp [step, h]⟩)
  | .text ls :: rest => exact .inr (.inr ⟨_, _, rfl, by simp [step, h]⟩)

end Sys2Proof.Machine
end

