-- ==== Sys2Proof/Laws/Value.lean ====
section
/-! SUPPORT. The small lemmas of `val`, `rep` and `zeros` (00_scope.md R7, R8). -/

namespace Sys2Proof

@[simp] theorem Value.val_nil : Value.val [] = 0 := rfl

theorem Value.val_cons (d : Digit) (ds : Value) :
    Value.val (d :: ds) = d.toNat * 256 ^ ds.length + Value.val ds := rfl

@[simp] theorem rep_length (n x : Nat) : (rep n x).length = n := by
  induction n with
  | zero => rfl
  | succ n ih => simp [rep, ih]

/-- A Value of `n` digits denotes a number below `256^n`. -/
theorem Value.val_lt (v : Value) : Value.val v < 256 ^ v.length := by
  induction v with
  | nil => simp
  | cons d ds ih =>
    have hd : d.toNat < 256 := d.isLt
    rw [Value.val_cons, List.length_cons, Nat.pow_succ]
    nlinarith [Nat.mul_le_mul_right (256 ^ ds.length) (Nat.le_of_lt_succ hd)]

/-- `rep n` keeps the number modulo `256^n`. -/
theorem Value.val_rep (n x : Nat) : Value.val (rep n x) = x % 256 ^ n := by
  induction n with
  | zero => simp [rep, Nat.mod_one]
  | succ n ih =>
    have h : x % 256 ^ (n + 1) = x % 256 ^ n + 256 ^ n * (x / 256 ^ n % 256) := by
      rw [Nat.pow_succ, Nat.mod_mul]
    rw [rep, Value.val_cons, rep_length, ih, BitVec.toNat_ofNat, h, Nat.mul_comm, Nat.add_comm]

/-- The digits of `rep n x` depend on `x` modulo `256^n` only. -/
theorem rep_mod (n m x : Nat) (h : n ≤ m) : rep n (x % 256 ^ m) = rep n x := by
  induction n with
  | zero => rfl
  | succ n ih =>
    have hm : (256 : Nat) ^ m = 256 ^ n * 256 * 256 ^ (m - n - 1) := by
      rw [← Nat.pow_succ, ← Nat.pow_add]; congr 1; omega
    rw [rep, rep, ih (by omega)]
    congr 1
    apply BitVec.eq_of_toNat_eq
    simp only [BitVec.toNat_ofNat, show (2 : Nat) ^ 8 = 256 by norm_num]
    rw [hm, Nat.mul_assoc, Nat.mod_mul_right_div_self, Nat.mod_mul_right_mod]

/-- A Value is the `rep` of its length and its number. -/
theorem rep_val (v : Value) : rep v.length (Value.val v) = v := by
  induction v with
  | nil => rfl
  | cons d ds ih =>
    have hlt := Value.val_lt ds
    have hpos : 0 < 256 ^ ds.length := by positivity
    have hmod : Value.val (d :: ds) % 256 ^ ds.length = Value.val ds := by
      rw [Value.val_cons, Nat.mul_comm, Nat.mul_add_mod, Nat.mod_eq_of_lt hlt]
    have hdiv : Value.val (d :: ds) / 256 ^ ds.length = d.toNat := by
      rw [Value.val_cons, Nat.mul_comm, Nat.mul_add_div hpos, Nat.div_eq_of_lt hlt, Nat.add_zero]
    rw [List.length_cons, rep, hdiv, ← rep_mod _ _ _ (le_refl _), hmod, ih]
    simp

/-- Two Values of one length that denote one number are equal. -/
theorem Value.eq_of_val_eq {v w : Value} (hl : v.length = w.length)
    (hv : Value.val v = Value.val w) : v = w := by
  rw [← rep_val v, ← rep_val w, hl, hv]

@[simp] theorem zeros_length (m : Nat) : (zeros m).length = m := by simp [zeros]

end Sys2Proof
end

