-- ==== Sys2Proof/Tests/Slice0.lean ====
section
/-! SUPPORT. Tests of one step each, their expected results from spec/95_test_vectors.md; the ill-formed terms the
well-formedness check refuses; a witness for the hypotheses of every statement. -/

namespace Sys2Proof.Tests

open Sys2Proof Sys2Proof.Machine

/-! ## Small states -/

/-- N_MAX = 4, L_MAX = 16, the default modes of 00_scope.md R5. -/
def par : Params := ⟨4, 7, .binary, .src, false, false⟩

/-- The same with L_MAX = 9. -/
def par9 : Params := { par with lMaxOver9 := 0 }

/-- EXECUTING with the given Values in the slots. -/
def running (p : Params) (vs : List Value) : State :=
  { State.resetWith p with
    seq := .executing
    nreg := BitVec.ofNat 32 vs.length
    iptr := BitVec.ofNat 32 vs.length
    regs := vs.map some }

/-- INITIALIZING with the given Values in the first slots and `m + 1` slots left. -/
def filling (p : Params) (vs : List Value) (m : Nat) : State :=
  { State.resetWith p with
    seq := .initializing
    nreg := BitVec.ofNat 32 (vs.length + m + 1)
    iptr := BitVec.ofNat 32 vs.length
    regs := vs.map some ++ List.replicate (m + 1) none }

/-- The state a result answers; every result here is a next state. -/
def after (r : Result) : State :=
  match r with
  | .next t => t
  | .fault f => nomatch f
  | .refused _ => State.resetWith par

/-! ## WellFormed refuses each ill-formed operand -/

theorem test_wf_count_too_wide : Instr.wf (.cnt (2 ^ 64)) = false := by decide
theorem test_wf_string_too_long :
    Instr.wf (.hexString (List.replicate (2 ^ 32) 0x30#8)) = false := by
  simp only [Instr.wf, List.length_replicate]; decide
theorem test_wf_clone_negative : Instr.wf (.clone (-1)) = false := by decide
theorem test_wf_clone_too_large : Instr.wf (.clone 65536) = false := by decide
theorem test_wf_shl_rd : Instr.wf (.shl (-1) 0 0#64) = false := by decide
theorem test_wf_shl_rs1 : Instr.wf (.shl 0 65536 0#64) = false := by decide
theorem test_wf_add_rd : Instr.wf (.add 65536 0 0) = false := by decide
theorem test_wf_add_rs1 : Instr.wf (.add 0 (-1) 0) = false := by decide
theorem test_wf_add_rs2 : Instr.wf (.add 0 0 65536) = false := by decide
theorem test_wf_mulUint64_rd : Instr.wf (.mulUint64 65536 0 0#64) = false := by decide
theorem test_wf_mulUint64_rs1 : Instr.wf (.mulUint64 0 (-1) 0#64) = false := by decide
theorem test_wf_mul_rd : Instr.wf (.mul (-1) 0 0) = false := by decide
theorem test_wf_mul_rs1 : Instr.wf (.mul 0 65536 0) = false := by decide
theorem test_wf_mul_rs2 : Instr.wf (.mul 0 0 (-1)) = false := by decide
theorem test_wf_pow_rd : Instr.wf (.pow 65536 0 0#64) = false := by decide
theorem test_wf_pow_rs1 : Instr.wf (.pow 0 (-1) 0#64) = false := by decide

/-! ## Decoding: words written out from 30_encoding.md R62 to R65, bit fields OP RSV RD RS1 RS2 -/

theorem test_decode_cnt : decode [0x0100000000000000#64, 2#64] = .cmd (.cnt 2) := by decide
theorem test_decode_uint64 :
    decode [0x1000000000000000#64, 0xFF#64] = .cmd (.uint64 255#64) := by decide
-- "abc" is 0x61 0x62 0x63, first character in bits 63:56 (95_test_vectors.md §10).
theorem test_decode_hexString : decode [0x1100000000000003#64, 0x6162630000000000#64] =
    .cmd (.hexString [0x61#8, 0x62#8, 0x63#8]) := by decide
theorem test_decode_clone : decode [0x1200000000010000#64] = .cmd (.clone 1) := by decide
theorem test_decode_shl :
    decode [0x2000000100020000#64, 12#64] = .cmd (.shl 1 2 12#64) := by decide
theorem test_decode_add : decode [0x2100000200010003#64] = .cmd (.add 2 1 3) := by decide
theorem test_decode_mulUint64 :
    decode [0x2200FFFF00010000#64, 2#64] = .cmd (.mulUint64 65535 1 2#64) := by decide
theorem test_decode_mul : decode [0x2300000200000001#64] = .cmd (.mul 2 0 1) := by decide
theorem test_decode_pow : decode [0x2400000300000000#64, 5#64] = .cmd (.pow 3 0 5#64) := by decide
theorem test_decode_dump : decode [0x3000000000000000#64] = .cmd .dump := by decide
theorem test_decode_end : decode [0x3F00000000000000#64] = .cmd .endSession := by decide
-- The characters of a second payload word (95_test_vectors.md §10, "deadbeefcafebabe01", its last two).
theorem test_decode_hexString_second_word :
    decode [0x1100000000000009#64, 0x6465616462656566#64, 0x3100000000000000#64] =
      .cmd (.hexString [0x64#8, 0x65#8, 0x61#8, 0x64#8, 0x62#8, 0x65#8, 0x65#8, 0x66#8, 0x31#8]) := by
  decide
theorem test_decode_reserved : decode [0x0000000000000000#64] = .unrecognized ∧
    decode [0xFF00000000000000#64] = .unrecognized := by decide
theorem test_decode_shl_rs2_not_zero :
    decode [0x2000000100000005#64, 8#64] = .unrecognized := by decide
-- R64: the opcode byte alone gives the length, so the IMM goes with the refused header (95_test_vectors.md §10).
theorem test_refused_header_takes_its_payload :
    afterEvent [0x2000000100000005#64, 8#64, 0x3F00000000000000#64] = [0x3F00000000000000#64] ∧
    eventWords [0x1101000000000012#64] = 4 ∧ eventWords [0xFF00000000000000#64] = 1 := by decide
theorem test_decode_clone_rd_not_zero : decode [0x1200000100000000#64] = .unrecognized := by decide
theorem test_decode_truncated : decode [0x0100000000000000#64] = .truncated := by decide
theorem test_decodeTableWord_add :
    decodeTableWord 64 0x2100000200010003 = some (.add 2 1 3) := by decide
theorem test_decodeTableWord_operand_word_zero :
    decodeTableWord 64 0x2400000300000000 = some (.pow 3 0 0#64) := by decide

/-! ## Values (95_test_vectors.md §2, §3) -/

theorem test_canon_keeps_one_digit : canon [0#8, 0#8, 0#8] = [0#8] := by decide
theorem test_canon_trims : canon [0#8, 0#8, 1#8, 0#8] = [1#8, 0#8] := by decide
-- "0x0abc" and a line feed.
theorem test_text_keeps_high_nibble : textOf [0x00#8, 0x0a#8, 0xbc#8] =
    [0x30#8, 0x78#8, 0x30#8, 0x61#8, 0x62#8, 0x63#8, 0x0A#8] := by decide

/-! ## One step of each command -/

theorem test_cnt_two : (after (exec (.cnt 2) (State.resetWith par))).regs = [none, none] ∧
    (after (exec (.cnt 2) (State.resetWith par))).statusWord = 0x00000001#32 := by decide
theorem test_cnt_over_nMax :
    (after (exec (.cnt 5) (State.resetWith par))).statusWord = 0x00000087#32 := by decide
theorem test_uint64_million : (after (exec (.uint64 1000000#64) (filling par [] 0))).regs =
    [some [0x0f#8, 0x42#8, 0x40#8]] := by decide
theorem test_uint64_last_slot : (after (exec (.uint64 7#64) (filling par [] 0))).statusWord =
    0x00000002#32 := by decide
theorem test_hexString_odd : (after (exec (.hexString [0x41#8, 0x42#8, 0x43#8]) (filling par [] 0))).regs =
    [some [0x0a#8, 0xbc#8]] := by decide
theorem test_hexString_empty :
    (after (exec (.hexString []) (filling par [] 0))).statusWord = 0x00000057#32 := by decide
theorem test_clone_keeps_length : (after (exec (.clone 0) (filling par [[0#8, 5#8]] 0))).regs =
    [some [0#8, 5#8], some [0#8, 5#8]] := by decide
theorem test_clone_itself :
    (after (exec (.clone 1) (filling par [[1#8]] 0))).statusWord = 0x00000077#32 := by decide
theorem test_shl_twelve :
    (after (exec (.shl 1 0 12#64) (running par [[0x12#8, 0x34#8, 0x56#8], [0#8]]))).slot 1 =
      some [0x45#8, 0x60#8, 0x00#8] := by decide
theorem test_shl_in_place :
    (after (exec (.shl 0 0 4#64) (running par [[0x00#8, 0xff#8]]))).slot 0 =
      some [0x0f#8, 0xf0#8] := by decide
theorem test_add_carry_grows :
    (after (exec (.add 0 0 1) (running par [[0xff#8], [0x01#8]]))).slot 0 =
      some [0x01#8, 0x00#8] := by decide
theorem test_add_keeps_leading_zero :
    (after (exec (.add 1 0 1) (running par [[0#8, 1#8], [1#8]]))).slot 1 =
      some [0x00#8, 0x02#8] := by decide
theorem test_mulUint64_wide : (after (exec (.mulUint64 0 0 0xFFFFFFFFFFFFFFFF#64)
      (running par [[0xff#8, 0xff#8]]))).slot 0 =
    some [0xff#8, 0xfe#8, 0xff#8, 0xff#8, 0xff#8, 0xff#8, 0xff#8, 0xff#8, 0x00#8, 0x01#8] := by decide
theorem test_mulUint64_dst :
    (after (exec (.mulUint64 0 1 5#64)
      (running { par with smulSource := .dst, smulCanon := true } [[2#8], [3#8]]))).slot 0 =
      some [0x0a#8] := by decide
theorem test_mul_schoolbook :
    (after (exec (.mul 2 0 1) (running par [[0x12#8, 0x34#8], [0x56#8], [0#8]]))).slot 2 =
      some [0x06#8, 0x1d#8, 0x78#8] := by decide
theorem test_mul_in_place :
    (after (exec (.mul 0 0 0) (running par [[0xff#8, 0xff#8]]))).slot 0 =
      some [0xff#8, 0xfe#8, 0x00#8, 0x01#8] := by decide
theorem test_pow_thirteen :
    (after (exec (.pow 1 0 13#64) (running par [[7#8], [0#8]]))).slot 1 =
      some [0x16#8, 0x8f#8, 0x08#8, 0xf8#8, 0xe7#8] := by decide
theorem test_pow_square_only :
    (after (exec (.pow 0 0 3#64) (running { par with powMode := .squareOnly } [[0xff#8]]))).slot 0 =
      some [0xfe#8, 0x01#8] := by decide
-- OUT gains "0x08" and "0x05".
theorem test_dump_two : (after (exec .dump (running par [[8#8], [5#8]]))).out =
    [[0x30#8, 0x78#8, 0x30#8, 0x38#8, 0x0A#8], [0x30#8, 0x78#8, 0x30#8, 0x35#8, 0x0A#8]] := by decide
theorem test_dump_initializing :
    (after (exec .dump (filling par [] 0))).statusWord = 0x00000027#32 := by decide
theorem test_end : (after (exec .endSession (running par []))).statusWord = 0x00000003#32 := by decide
theorem test_end_before_count :
    (after (exec .endSession (State.resetWith par))).statusWord = 0x00000017#32 := by decide

/-! ## The text front end (95_test_vectors.md §3, §9; 30_encoding.md R58, R60) -/

-- "-1" after CLONE is delivered as the index -1.
theorem test_text_negative_index :
    textEvent .initializing [ascii ['C', 'L', 'O', 'N', 'E'], ascii ['-', '1']] =
      (.cmd (.clone (-1)), []) := by decide
theorem test_text_two_fields :
    textEvent .executing [ascii ['S', 'H', 'L'], ascii ['0', ' ', '0']] = (.malformed, []) := by decide
theorem test_text_lower_case_token :
    textEvent .executing [ascii ['a', 'd', 'd']] = (.unrecognized, []) := by decide
theorem test_text_add : textEvent .executing [ascii ['A', 'D', 'D'], ascii ['0', ' ', '0', ' ', '1'], []] =
    (.cmd (.add 0 0 1), [[]]) := by decide
theorem test_text_count_not_a_number :
    textEvent .awaitingCount [ascii ['-', '1']] = (.malformed, []) := by decide

/-! ## A step, from reset and with nothing delivered -/

-- 95_test_vectors.md §10: SHL with RS2 not zero and its IMM are one event; no second step is left.
theorem test_step_takes_refused_header_whole :
    step ((running par [[0x01#8]]).withInbox [.port [0x2000000100000005#64, 8#64]]) =
      .next { running par [[0x01#8]] with seq := .terminated, fail := true, err := 3#4 } := rfl

theorem test_step_from_reset_runs_cnt :
    (after (step (State.reset.withFetchWord 64 0x0100000000000000))).seq = .executing := by decide
theorem test_step_from_reset_runs_add :
    (after (step (State.reset.withFetchWord 64 0x2100000200000001))).statusWord = 0x00000017#32 := by
  decide

/-! ## Witnesses: for every statement with hypotheses, a state and operands that meet all of them -/

theorem count_ofNat {n : Nat} (h : n ≤ 65536) : (BitVec.ofNat 32 n).toNat = n := by
  rw [BitVec.toNat_ofNat]; omega

/-- EXECUTING with Values that fit is a state of the invariant. -/
theorem running_inv (p : Params) (vs : List Value) (hn : vs.length ≤ p.nMax.val)
    (hf : ∀ v ∈ vs, Value.Fits p.lMax v) : (running p vs).Inv := by
  have hc : (BitVec.ofNat 32 vs.length).toNat = vs.length := count_ofNat (by omega)
  have hslot : ∀ i, (running p vs).slot i = vs[i]? := fun i => by
    cases h : vs[i]? <;> simp [State.slot, running, h]
  constructor
  · simpa [State.count, running, hc] using hn
  · simp only [running, State.count, List.length_map, hc]
  · simp [running, State.count]
  · intro i hi
    have hi : i < vs.length := by rwa [running, hc] at hi
    exact ⟨vs[i], by rw [hslot]; simp [hi], hf _ (List.getElem_mem hi)⟩
  · intro i hi
    have hi : vs.length ≤ i := by rwa [running, hc] at hi
    rw [hslot, List.getElem?_eq_none hi]
  · simp [running]
  · simp [running]
  · simp [running]
  · simp [running]
  · simp [running]
  · simp [running]

/-- INITIALIZING with Values that fit below IPTR is a state of the invariant. -/
theorem filling_inv (p : Params) (vs : List Value) (m : Nat) (hn : vs.length + m + 1 ≤ p.nMax.val)
    (hf : ∀ v ∈ vs, Value.Fits p.lMax v) : (filling p vs m).Inv := by
  have hc : (BitVec.ofNat 32 (vs.length + m + 1)).toNat = vs.length + m + 1 :=
    count_ofNat (by omega)
  have hi' : (BitVec.ofNat 32 vs.length).toNat = vs.length := count_ofNat (by omega)
  have hslot : ∀ i, (filling p vs m).slot i =
      ((vs.map some ++ List.replicate (m + 1) none)[i]?).join := fun i => rfl
  constructor
  · show (BitVec.ofNat 32 (vs.length + m + 1)).toNat ≤ p.nMax.val
    rwa [hc]
  · simp only [filling, State.count, List.length_append, List.length_map, List.length_replicate, hc]
    omega
  · simp only [filling, State.count, hc, hi']; omega
  · intro i hi
    have hi : i < vs.length := by rwa [filling, hi'] at hi
    refine ⟨vs[i], ?_, hf _ (List.getElem_mem hi)⟩
    rw [hslot, List.getElem?_append_left (by simpa using hi)]
    simp [hi]
  · intro i hi
    have hi : vs.length ≤ i := by rwa [filling, hi'] at hi
    rw [hslot, List.getElem?_append_right (by simpa using hi), List.getElem?_replicate]
    split <;> rfl
  · simp [filling]
  · intro _
    refine ⟨?_, rfl⟩
    simp only [filling, State.count, hc, hi']; omega
  · simp [filling]
  · simp [filling]
  · simp [filling]
  · simp [filling]

/-- Two slots, [ff] and [01], EXECUTING. -/
def run2 : State := running par [[0xff#8], [0x01#8]]

/-- Two slots, [ff] and Uninit, INITIALIZING at slot 1. -/
def fill2 : State := filling par [[0xff#8]] 0

/-- A session ended by IndexOutOfRange. -/
def ended2 : State := run2.raise .indexOutOfRange

theorem run2_inv : run2.Inv := running_inv par _ (by decide) (by decide)
theorem fill2_inv : fill2.Inv := filling_inv par _ 0 (by decide) (by decide)

theorem ended2_inv : ended2.Inv where
  count_le := run2_inv.count_le
  regs_length := run2_inv.regs_length
  iptr_le := run2_inv.iptr_le
  written := run2_inv.written
  unwritten := run2_inv.unwritten
  awaiting := by simp [ended2]
  initializing := by simp [ended2]
  executing := by simp [ended2]
  failed := by intro _; exact ⟨rfl, by decide, by decide⟩
  not_failed := by simp [ended2]
  out_lines := run2_inv.out_lines

theorem wit_ResetGivesEveryPieceItsValue :
    (4 : Nat) ≤ par.nMax.val ∧ (0 : Nat) ≤ par.nMax.val ∧ 1 < fill2.count ∧ fill2.slot 1 = none := by
  decide
theorem wit_HostResetStartsANewSession :
    (ended2.withInbox [.reset, .event .eoi]).inbox = .reset :: [.event .eoi] ∧
    ended2.seq = .terminated ∧ (∀ rest, ended2.inbox ≠ .reset :: rest) ∧
    step ended2 = .next ended2 := ⟨rfl, rfl, (fun _ h => by cases h), rfl⟩
theorem wit_StepKeepsInvariant : run2.Inv ∧ step run2 = .next run2 := ⟨run2_inv, rfl⟩
theorem wit_CountIsFixedForTheSession :
    run2.seq ≠ .awaitingCount ∧ (∀ rest, run2.inbox ≠ .reset :: rest) ∧ step run2 = .next run2 :=
  ⟨by decide, (fun _ h => by cases h), rfl⟩
theorem wit_StatusRegistersReadAsLaidOut :
    run2.Inv ∧ run2.seq = .executing ∧ (State.resetWith par).seq = .awaitingCount ∧
    ended2.Inv ∧ ended2.statusWord.getLsbD 2 = true :=
  ⟨run2_inv, rfl, rfl, ended2_inv, by decide⟩
theorem wit_EventsBeforeTheCountAreMalformedCount :
    (State.resetWith par).seq = .awaitingCount ∧ (∀ n, Event.eoi ≠ .cmd (.cnt n)) ∧
    ∀ n, Event.cmd .dump ≠ .cmd (.cnt n) :=
  ⟨rfl, (fun _ h => by cases h), (fun _ h => by cases h)⟩
theorem wit_EventsRefusedWhileInitializing : fill2.seq = .initializing ∧
    (∀ v, Instr.dump ≠ .uint64 v) ∧ (∀ str, Instr.dump ≠ .hexString str) ∧
    ∀ j, Instr.dump ≠ .clone j :=
  ⟨rfl, (fun _ h => by cases h), (fun _ h => by cases h), (fun _ h => by cases h)⟩
theorem wit_EventsRefusedWhileExecuting : run2.seq = .executing := rfl
theorem wit_TerminatedIsFinal : ended2.seq = .terminated ∧
    (∀ rest, ended2.inbox ≠ .reset :: rest) ∧ (ended2.withInbox [.reset]).inbox = .reset :: [] ∧
    step ended2 = .next ended2 ∧
    step { ended2 with regs := [] } = .next { ended2 with regs := [] } :=
  ⟨rfl, (fun _ h => by cases h), rfl, rfl, rfl⟩
theorem wit_ErrorsWriteNothingElse : run2.fail = false ∧
    deliver .malformed run2 = .next (run2.raise .malformedArgument) ∧
    (run2.raise .malformedArgument).fail = true := ⟨rfl, rfl, rfl⟩
-- Both ends of the range of every index, N = 2.
theorem wit_IndexOutOfRangeComesFirst : run2.seq = .executing ∧ fill2.seq = .initializing ∧
    ((-1 : Int) < 0 ∨ (run2.count : Int) ≤ -1) ∧ ((2 : Int) < 0 ∨ (run2.count : Int) ≤ 2) ∧
    ((-1 : Int) < 0 ∨ (fill2.count : Int) ≤ -1) ∧ ((2 : Int) < 0 ∨ (fill2.count : Int) ≤ 2) := by
  decide
theorem wit_CountMakesTheRegisterFile :
    (State.resetWith par).seq = .awaitingCount ∧ (4 : Nat) ≤ (State.resetWith par).cfg.nMax.val ∧
    (State.resetWith par).cfg.nMax.val < (5 : Nat) ∧ fill2.seq = .initializing ∧
    run2.seq = .executing := by decide
theorem wit_Uint64StoresItsLiteral :
    fill2.seq = .initializing ∧ fill2.iptr.toNat < fill2.count := by decide
-- 18 characters fit L_MAX = 9, 19 do not.
theorem wit_HexStringStoresItsNumber :
    (filling par9 [] 0).seq = .initializing ∧
    (filling par9 [] 0).iptr.toNat < (filling par9 [] 0).count ∧
    (List.replicate 18 0x66#8 ≠ [] ∧ (List.replicate 18 0x66#8).all isHexDigit = true ∧
      (rep ((18 + 1) / 2) (hexNumber (List.replicate 18 0x66#8))).length ≤ par9.lMax) ∧
    (List.replicate 19 0x66#8 ≠ [] ∧ (List.replicate 19 0x66#8).all isHexDigit = true ∧
      par9.lMax < (rep ((19 + 1) / 2) (hexNumber (List.replicate 19 0x66#8))).length) := by decide
-- The characters next to the digits and letters: '/', ':', '@', 'G', '`', 'g'.
theorem wit_HexStringRejectsOtherCharacters : fill2.seq = .initializing ∧
    ∀ c ∈ [0x2F#8, 0x3A#8, 0x40#8, 0x47#8, 0x60#8, 0x67#8],
      ¬ (0x30 ≤ c.toNat ∧ c.toNat ≤ 0x39) ∧ ¬ (0x61 ≤ c.toNat ∧ c.toNat ≤ 0x66) ∧
        ¬ (0x41 ≤ c.toNat ∧ c.toNat ≤ 0x46) := by decide
theorem wit_CloneCopiesASlot : fill2.seq = .initializing ∧ fill2.iptr.toNat < fill2.count ∧
    ((-1 : Int) < 0 ∨ (fill2.count : Int) ≤ -1) ∧ ((2 : Int) < 0 ∨ (fill2.count : Int) ≤ 2) ∧
    ((0 : Int) ≤ 1 ∧ (1 : Int) < fill2.count ∧ fill2.slot (1 : Int).toNat = none) ∧
    ((0 : Int) ≤ 0 ∧ (0 : Int) < fill2.count ∧ fill2.slot (0 : Int).toNat = some [0xff#8]) := by
  decide
theorem wit_CloneReachesOnlyEarlierSlots : fill2.Inv ∧ fill2.seq = .initializing ∧
    (0 : Nat) < fill2.iptr.toNat ∧ fill2.iptr.toNat ≤ 1 ∧
    exec (.clone 0) fill2 = .next (fill2.initSlot [0xff#8]) ∧
    ((fill2.iptr.toNat : Int) ≤ 1 ∧ (1 : Int) < fill2.count) ∧ (fill2.count : Int) ≤ 2 ∧
    run2.Inv ∧ run2.seq = .executing ∧ 1 < run2.count :=
  ⟨fill2_inv, rfl, by decide, by decide, rfl, by decide, by decide, run2_inv, rfl, by decide⟩
theorem wit_ShiftIsModular : run2.seq = .executing ∧ 1 < run2.count ∧ 0 < run2.count ∧
    run2.slot 0 = some [0xff#8] ∧ 8 * ([0xff#8] : Value).length ≤ 8 ∧
    Value.Fits par.lMax [0xff#8] ∧ 2 ^ 35 ≤ 34359738368 ∧ 2 ^ 64 - 1 ≤ 18446744073709551615 :=
  ⟨rfl, by decide, by decide, rfl, by decide, ⟨by decide, by decide⟩, by decide, by decide⟩
-- A sum of 9 digits fits L_MAX = 9, one of 10 does not (95_test_vectors.md §5).
theorem wit_AddIsExact :
    (∀ n ∈ [8, 9], (running par9 [List.replicate n 0xff#8]).seq = .executing ∧
      0 < (running par9 [List.replicate n 0xff#8]).count ∧
      (running par9 [List.replicate n 0xff#8]).slot 0 = some (List.replicate n 0xff#8) ∧
      256 ^ n ≤ Value.val (List.replicate n 0xff#8) + Value.val (List.replicate n 0xff#8)) ∧
    (rep 9 0).length ≤ par9.lMax ∧ par9.lMax < (rep 10 0).length ∧
    ¬ 256 ^ 1 ≤ Value.val [0x7f#8] + Value.val [0x80#8] := by decide
theorem wit_ScalarProductIsExact : run2.seq = .executing ∧ 1 < run2.count ∧
    run2.slot (match run2.cfg.smulSource with | .src => 0 | .dst => 1) = some [0xff#8] ∧
    (rep (1 + 8) (255 * 255)).length ≤ run2.cfg.lMax ∧
    (running par9 [[0x00#8, 0x01#8]]).slot 0 = some [0x00#8, 0x01#8] ∧
    par9.lMax < (rep (2 + 8) 1).length := by decide
theorem wit_SmulSourceDoesNotMatterInPlace :
    (∃ t, exec (.mulUint64 0 0 5#64) { run2 with cfg := { run2.cfg with smulSource := .src } } = .next t) ∧
    ∃ u, exec (.mulUint64 0 0 5#64) { run2 with cfg := { run2.cfg with smulSource := .dst } } = .next u :=
  ⟨⟨_, rfl⟩, ⟨_, rfl⟩⟩
theorem wit_SchoolbookProductIsExact : run2.seq = .executing ∧ 1 < run2.count ∧
    run2.slot 0 = some [0xff#8] ∧ ([0xff#8] : Value) ≠ [] ∧
    (minrep (Value.val [0xff#8] * Value.val [0xff#8])).length ≤ run2.cfg.lMax ∧
    (running par9 [List.replicate 9 0xff#8]).slot 0 = some (List.replicate 9 0xff#8) ∧
    par9.lMax < (minrep (Value.val (List.replicate 9 0xff#8) * 256)).length := by decide
theorem wit_PowerIsExact : run2.seq = .executing ∧ 1 < run2.count ∧ run2.slot 0 = some [0xff#8] ∧
    (minrep (Value.val [0xff#8] ^ 16)).length ≤ run2.cfg.lMax ∧
    run2.cfg.lMax < (minrep (Value.val [0xff#8] ^ 17)).length := by decide
theorem wit_PowerIntermediatesFitWithTheResult : (2 : Nat) ≤ 2 ∧ (1 : Nat) ≤ 1 := by decide
theorem wit_SquareByPowerIsMul : ∀ i v, run2.slot i = some v → v ≠ [] := by
  intro i v h
  match i with
  | 0 => cases h; decide
  | 1 => cases h; decide
  | i + 2 => cases h
theorem wit_AliasedDestinationGetsTheSameValue : run2.Inv ∧ run2.seq = .executing ∧
    0 < run2.count ∧ 1 < run2.count ∧ run2.cfg.smulSource = .src ∧
    ∀ i ∈ [(Instr.shl 0 0 4#64, Instr.shl 1 0 4#64), (.add 0 0 1, .add 1 0 1), (.mul 0 0 1, .mul 1 0 1),
        (.pow 0 0 4#64, .pow 1 0 4#64)] ++ [(.mulUint64 0 0 4#64, .mulUint64 1 0 4#64)],
      ((after (exec i.1 run2)).seq = .executing ∧ exec i.1 run2 = .next (after (exec i.1 run2))) ∧
      exec i.2 run2 = .next (after (exec i.2 run2)) := by
  refine ⟨run2_inv, rfl, by decide, by decide, rfl, ?_⟩
  intro i hi
  simp only [List.cons_append, List.nil_append, List.mem_cons, List.not_mem_nil, or_false] at hi
  rcases hi with rfl | rfl | rfl | rfl | rfl <;> exact ⟨⟨by decide, rfl⟩, rfl⟩
/-- [00 ff] beside [ff], L_MAX 16 beside 9, SMUL_CANON false beside true. -/
theorem wit_LengthsShowOnlyThroughShift :
    SameNumbers (running par [[0x00#8, 0xff#8], [0x01#8]])
      (running { par9 with smulCanon := true } [[0xff#8], [0x01#8]]) ∧
    (∀ rd rs1 k, Instr.mulUint64 0 0 7#64 ≠ .shl rd rs1 k) ∧
    (after (exec (.mulUint64 0 0 7#64) (running par [[0x00#8, 0xff#8], [0x01#8]]))).err ≠ 8#4 ∧
    (after (exec (.mulUint64 0 0 7#64)
      (running { par9 with smulCanon := true } [[0xff#8], [0x01#8]]))).err ≠ 8#4 := by
  refine ⟨?_, (fun _ _ _ h => by cases h), by decide, by decide⟩
  constructor <;> try rfl
  exact .cons ⟨by decide, by decide, by decide⟩ (.cons ⟨by decide, by decide, by decide⟩ .nil)
theorem wit_DumpPrintsEverySlot : run2.seq = .executing ∧
    run2.count = ([[0xff#8], [0x01#8]] : List Value).length ∧
    run2.regs = ([[0xff#8], [0x01#8]] : List Value).map some := by decide
theorem wit_EndSucceeds : run2.seq = .executing ∧ (State.resetWith par).seq = .awaitingCount ∧
    fill2.seq = .initializing := by decide
theorem wit_OutputIsNeverRetracted : (∀ rest, run2.inbox ≠ .reset :: rest) ∧ step run2 = .next run2 ∧
    Event.cmd .endSession ≠ .cmd .dump ∧
    deliver (.cmd .endSession) run2 =
      .next { run2 with seq := .terminated, fail := false, err := 0#4 } :=
  ⟨(fun _ h => by cases h), rfl, by decide, rfl⟩
theorem wit_OperationFrame :
    ∀ i ∈ [Instr.shl 0 0 1#64, .add 0 0 1, .mulUint64 0 0 1#64, .mul 0 0 1, .pow 0 0 1#64],
      exec i run2 = .next (after (exec i run2)) ∧ (after (exec i run2)).seq = .executing := by
  intro i hi
  simp only [List.mem_cons, List.not_mem_nil, or_false] at hi
  rcases hi with rfl | rfl | rfl | rfl | rfl <;> exact ⟨rfl, by decide⟩
theorem wit_InitializerFrame :
    ∀ i ∈ [Instr.uint64 1#64, .hexString [0x31#8], .clone 0],
      exec i fill2 = .next (after (exec i fill2)) ∧ (after (exec i fill2)).seq = .executing := by
  intro i hi
  simp only [List.mem_cons, List.not_mem_nil, or_false] at hi
  rcases hi with rfl | rfl | rfl <;> exact ⟨rfl, by decide⟩
theorem wit_SessionCommandFrame :
    (∃ t, exec (.cnt 2) (State.resetWith par) = .next t ∧ t.seq = .initializing) ∧
    (∃ t, exec .dump run2 = .next t ∧ t.seq = .executing) ∧
    ∃ t, exec .endSession run2 = .next t ∧ t.fail = false :=
  ⟨⟨_, rfl, by decide⟩, ⟨_, rfl, by decide⟩, ⟨_, rfl, rfl⟩⟩
theorem wit_CanonTrimsAndKeepsTheNumber : ([0#8, 0#8] : Value) ≠ [] ∧ Value.val [0#8, 0#8] = 0 ∧
    ([0#8, 1#8] : Value) ≠ [] ∧ 0 < Value.val [0#8, 1#8] := by decide
theorem wit_MinrepIsTheCanonicalValue : ([1#8, 0#8] : Value) ≠ [] ∧ canon [1#8, 0#8] = [1#8, 0#8] ∧
    Value.val [1#8, 0#8] = 256 ∧ canon [0#8] = [0#8] ∧ Value.val [0#8] = 0 := by decide
theorem wit_PrintFormShowsTheNumber :
    ([0#8, 1#8] : Value) ≠ [] ∧ ([1#8] : Value) ≠ [] ∧ textOf [0#8, 1#8] = textOf [1#8] := by decide
theorem wit_HexStringPrintsBack :
    (filling par [[0xff#8]] 0).seq = .initializing ∧
    (filling par [[0xff#8]] 0).count = ([[0xff#8]] : List Value).length + 1 ∧
    (filling par [[0xff#8]] 0).iptr.toNat = ([[0xff#8]] : List Value).length ∧
    (filling par [[0xff#8]] 0).regs = ([[0xff#8]] : List Value).map some ++ [none] ∧
    ascii ['0', '0', 'A', 'B', 'C'] ≠ [] ∧ (ascii ['0', '0', 'A', 'B', 'C']).all isHexDigit = true ∧
    (hexStored par.hexCanon (ascii ['0', '0', 'A', 'B', 'C'])).length ≤ par.lMax ∧
    -- 20 zeros fit L_MAX = 9 when HEX_CANON is true, and only then.
    (hexStored true (List.replicate 20 0x30#8)).length ≤ par9.lMax ∧
    par9.lMax < (hexStored false (List.replicate 20 0x30#8)).length ∧
    ∀ c ∈ ascii ['0', '0', 'f', 'f'], ¬ (0x41 ≤ c.toNat ∧ c.toNat ≤ 0x46) := by decide
theorem wit_DecodeReadsBackEncode : Instr.wf (.add 65535 0 65535) = true ∧
    Instr.wf (.cnt (2 ^ 64 - 1)) = true ∧ Instr.wf (.clone 65535) = true ∧
    Instr.wf (.hexString [0x61#8]) = true := by decide
theorem wit_OpcodeRowsDoNotOverlap :
    ⟨.add, 0x2100000000000000#64, 0xFFFF000000000000#64⟩ ∈ opcodeRows ∧
    0x2100000200000001#64 &&& 0xFFFF000000000000#64 = 0x2100000000000000#64 := by decide
theorem wit_ReservedHeadersAreUnrecognized :
    (0x2101000000000001#64).extractLsb' 48 8 ≠ 0#8 ∧
    decode [0x2101000000000001#64] = .unrecognized ∧
    (0x3000000000010000#64).extractLsb' 16 16 ≠ 0#16 ∧
    decode [0x3000000000010000#64] = .unrecognized ∧
    decode [0x2100000000000001#64] ≠ .unrecognized := by decide
theorem wit_StepRunsTheDecodedCommand :
    (run2.withInbox [.port [0x2100000000000001#64]]).inbox = .port [0x2100000000000001#64] :: [] ∧
    decode [0x2100000000000001#64] = .cmd (.add 0 0 1) ∧
    (run2.withInbox [.text [ascii ['D', 'U', 'M', 'P']]]).inbox = .text [ascii ['D', 'U', 'M', 'P']] :: [] ∧
    (textEvent run2.seq [ascii ['D', 'U', 'M', 'P']]).1 = .cmd .dump ∧
    (run2.withInbox [.event (.cmd (.add (-1) 0 1))]).inbox = .event (.cmd (.add (-1) 0 1)) :: [] := by
  decide
theorem wit_CoreStepsOnlyOnHostEvents : run2.inbox = [] ∧
    (run2.withInbox [.text [[0x45#8, 0x4E#8, 0x44#8]]]).inbox = .text [[0x45#8, 0x4E#8, 0x44#8]] :: [] ∧
    Delivery.text [[0x45#8, 0x4E#8, 0x44#8]] ≠ .reset ∧
    (run2.withInbox [.port [0x3000000000000000#64]]).inbox = .port [0x3000000000000000#64] :: [] ∧
    Delivery.port [0x3000000000000000#64] ≠ .reset ∧
    (run2.withInbox [.event .eoi]).inbox = .event .eoi :: [] ∧ Delivery.event .eoi ≠ .reset := by decide
theorem wit_TextNeverDeliversMulOrPow :
    textEvent .executing [ascii ['E', 'N', 'D']] = (.cmd .endSession, []) ∧
    Seq.executing ≠ .awaitingCount ∧
    textEvent .awaitingCount [ascii ['7']] = (.cmd (.cnt 7), []) := by decide
theorem wit_TextReadsBackTextLines :
    textLines (.cnt 10) = some [ascii ['1', '0']] ∧
    textLines (.clone (-1)) = some [ascii ['C', 'L', 'O', 'N', 'E'], ascii ['-', '1']] ∧
    (∀ n, Instr.clone (-1) ≠ .cnt n) ∧ Seq.initializing ≠ .awaitingCount :=
  ⟨by decide, by decide, (fun _ h => by cases h), by decide⟩
theorem wit_TextChecksItsNumerals : Seq.executing ≠ .awaitingCount ∧ 2 ^ 64 ≤ 18446744073709551616 ∧
    Token.clone ∈ allTokens ∧ Token.clone.hasArgument = true := by decide
/-- A literal, a string and a copy of the string's slot. -/
def boot3 : List Instr := [.uint64 3#64, .hexString (ascii ['a', 'b', 'c']), .clone 1]

theorem wit_BootReachesExecuting : boot3.length ≤ par.nMax.val ∧
    ∀ (i : Nat) (ini : Instr), boot3[i]? = some ini → ini.Initializes par i := by
  refine ⟨by decide, fun i ini h => ?_⟩
  match i with
  | 0 => cases h; exact trivial
  | 1 => cases h; exact ⟨by decide, by decide, by decide⟩
  | 2 => cases h; exact ⟨by decide, by decide⟩
  | i + 3 => cases h
theorem wit_OpcodeByteDecidesTheLength :
    (0x2000000100000005#64).extractLsb' 56 8 ∈ [0x01#8, 0x10#8, 0x20#8, 0x22#8, 0x24#8] ∧
    (0x1101000000000012#64).extractLsb' 56 8 = 0x11#8 ∧
    (0x1200000100000000#64).extractLsb' 56 8 ∈ [0x12#8, 0x21#8, 0x23#8, 0x30#8, 0x3F#8] ∧
    (0xFF00000000000000#64).extractLsb' 56 8 ∉ [0x01#8, 0x10#8, 0x11#8, 0x12#8, 0x20#8, 0x21#8, 0x22#8,
      0x23#8, 0x24#8, 0x30#8, 0x3F#8] := by decide
theorem wit_OtherTokensAreUnrecognized : Seq.initializing ≠ .awaitingCount ∧
    ascii ['s', 'h', 'l'] ∉ [ascii ['U', 'I', 'N', 'T', '6', '4'],
      ascii ['H', 'E', 'X', '_', 'S', 'T', 'R', 'I', 'N', 'G'], ascii ['C', 'L', 'O', 'N', 'E'],
      ascii ['S', 'H', 'L'], ascii ['A', 'D', 'D'], ascii ['M', 'U', 'L', '_', 'U', 'I', 'N', 'T', '6', '4'],
      ascii ['D', 'U', 'M', 'P'], ascii ['E', 'N', 'D']] := by decide

end Sys2Proof.Tests
end

section
/-! SUPPORT. How many digits the Values made by the model's digit functions have. -/

namespace Sys2Proof

theorem minrep_ne_nil (x : Nat) : minrep x ≠ [] := by simp [minrep, rep]

/-- A 64-bit number needs at most eight digits. -/
theorem minrep_length_le_of_word (v : Word) : (minrep v.toNat).length ≤ 8 := by
  have h : v.toNat.log2 ≤ 63 := by
    rcases Nat.eq_zero_or_pos v.toNat with hz | hp
    · simp [hz]
    · exact Nat.le_of_lt_succ ((Nat.log2_lt hp.ne').mpr v.isLt)
  simp only [minrep, rep_length]
  omega

/-- The leading-zero count stops one digit short of the end (40_canonicalization.md R80). -/
theorem lzc_lt_length {v : Value} (h : v ≠ []) : lzc v < v.length := by
  fun_induction lzc v with
  | case1 => exact absurd rfl h
  | case2 d => simp
  | case3 e ds ih => simpa using ih (by simp)
  | case4 d e ds => simp

theorem canon_ne_nil {v : Value} (h : v ≠ []) : canon v ≠ [] := by
  simpa [canon, List.drop_eq_nil_iff] using lzc_lt_length h

end Sys2Proof

namespace Sys2Proof.Machine

theorem addChain_length (a b : Value) (m t c : Nat) (w : Value) :
    (addChain a b m t c w).2.length = w.length + m := by
  induction m generalizing t c w with
  | zero => rfl
  | succ m ih => simp only [addChain, ih, List.length_cons]; omega

theorem addValues_ne_nil {a : Value} (ha : a ≠ []) (b : Value) : addValues a b ≠ [] := by
  have hpos := List.length_pos_of_ne_nil ha
  have hlen := addChain_length a b (max a.length b.length) 0 0 []
  simp only [addValues]
  split
  · exact List.cons_ne_nil _ _
  · apply List.ne_nil_of_length_pos
    rw [hlen, List.length_nil]
    omega

theorem carryBytes_length (m c : Nat) (w : Value) : (carryBytes m c w).length = w.length + m := by
  induction m generalizing c w with
  | zero => rfl
  | succ m ih => simp only [carryBytes, ih, List.length_cons]; omega

theorem scalarProduct_ne_nil (smulCanon : Bool) (a : Value) (k : Nat) :
    scalarProduct smulCanon a k ≠ [] := by
  have h : ∀ c w, carryBytes 8 c w ≠ [] := fun c w =>
    List.ne_nil_of_length_pos (by rw [carryBytes_length]; omega)
  simp only [scalarProduct]
  split
  · exact canon_ne_nil (h _ _)
  · exact h _ _

theorem crossPass_length (ai : Nat) (b : Value) (i j c : Nat) (p : Value) :
    (crossPass ai b i j c p).2.length = p.length := by
  induction j generalizing c p with
  | zero => rfl
  | succ j ih => simp only [crossPass, ih, List.length_set]

theorem crossPasses_length (a b : Value) (i : Nat) (p : Value) :
    (crossPasses a b i p).length = p.length := by
  induction i generalizing p with
  | zero => rfl
  | succ i ih => simp only [crossPasses, ih, List.length_set, crossPass_length]

theorem mulValues_ne_nil {a : Value} (ha : a ≠ []) (b : Value) : mulValues a b ≠ [] := by
  have hpos := List.length_pos_of_ne_nil ha
  refine canon_ne_nil (List.ne_nil_of_length_pos ?_)
  rw [crossPasses_length, zeros_length]
  omega

theorem binpowLoop_ne_nil {acc : Value} (h : acc ≠ []) (m : Nat) (sq : Value) (e : Nat) :
    binpowLoop m acc sq e ≠ [] := by
  induction m generalizing acc sq e with
  | zero => exact h
  | succ m ih =>
    simp only [binpowLoop]
    split
    · exact h
    · refine ih ?_ _ _
      split
      · exact minrep_ne_nil _
      · exact h

theorem power_ne_nil (mode : PowMode) {a : Value} (ha : a ≠ []) (k : Nat) : power mode a k ≠ [] := by
  unfold power
  split
  · exact List.cons_ne_nil _ _
  · split
    · exact ha
    · cases mode
      · exact binpowLoop_ne_nil (List.cons_ne_nil _ _) _ _ _
      · exact minrep_ne_nil _

@[simp] theorem shiftLeft_length (a : Value) (k : Nat) : (shiftLeft a k).length = a.length := by
  simp [shiftLeft]

theorem hexPairs_length (s : List Char8) : (hexPairs s).length = s.length / 2 := by
  fun_induction hexPairs s with
  | case1 c d rest ih => simp only [List.length_cons, ih]; omega
  | case2 c => simp
  | case3 => rfl

/-- Padding makes the length the next even number (41_construction.md R91). -/
theorem padHex_length (s : List Char8) : (padHex s).length = 2 * ((s.length + 1) / 2) := by
  unfold padHex
  split
  · rw [List.length_cons]; omega
  · omega

theorem hexValue_ne_nil (hexCanon : Bool) {s : List Char8} (h : s ≠ []) : hexValue hexCanon s ≠ [] := by
  have hpos := List.length_pos_of_ne_nil h
  have hne : hexPairs (padHex s) ≠ [] := by
    apply List.ne_nil_of_length_pos
    rw [hexPairs_length, padHex_length]
    omega
  unfold hexValue
  split
  · exact canon_ne_nil hne
  · exact hne

end Sys2Proof.Machine
end

section
/-! SUPPORT. What a step does to the state, said once: every command that raises no error is one of five
effects, and an event that is no command is an error or nothing. Each invariant and frame is a case analysis
on these. -/

namespace Sys2Proof.Machine

variable {s t : State}

/-- Every Value in the register file has a legal length (10_state.md R23). -/
def State.SlotsFit (s : State) : Prop := ∀ (i : Nat) (v : Value), s.slot i = some v → v.Fits s.cfg.lMax

/-- A slot's Value of legal length is non-empty. -/
theorem State.SlotsFit.ne_nil (hs : s.SlotsFit) {i : Nat} {v : Value} (h : s.slot i = some v) : v ≠ [] :=
  List.ne_nil_of_length_pos (hs i v h).1

/-- A non-empty Value that passed the capacity check has a legal length. -/
theorem fits_of_ne_nil {lMax : Nat} {v : Value} (hne : v ≠ []) (hcap : v.length ≤ lMax) : v.Fits lMax :=
  ⟨List.length_pos_of_ne_nil hne, hcap⟩

/-- `t` is `s` with a Value stored in the in-range slot `rd`, of legal length where the sources have one:
what the operations do that raise no error. -/
def State.Stores (s : State) (rd : Int) (t : State) : Prop :=
  ∃ (d : Nat) (v : Value), rd = (d : Int) ∧ d < s.count ∧ (s.SlotsFit → v.Fits s.cfg.lMax) ∧
    t = s.writeSlot d v

/-- `t` is `s` with slot IPTR initialized and the sequencer advanced, the Value of legal length where the
earlier ones are: what the initializers do that raise no error. -/
def State.Fills (s t : State) : Prop :=
  ∃ v : Value, (s.SlotsFit → v.Fits s.cfg.lMax) ∧ t = s.initSlot v

theorem operate1_stores {rd rs1 : Int} {f : Value → Value} (hf : ∀ a, a ≠ [] → f a ≠ [])
    (h : s.operate1 rd rs1 f = .ok t) : s.Stores rd t := by
  obtain ⟨d, _, a, hrd, hd, -, -, ha, hcap, rfl⟩ := operate1_ok h
  exact ⟨d, f a, hrd, hd, fun hs => fits_of_ne_nil (hf a (hs.ne_nil ha)) hcap, rfl⟩

theorem operate2_stores {rd rs1 rs2 : Int} {f : Value → Value → Value}
    (hf : ∀ a b, a ≠ [] → f a b ≠ []) (h : s.operate2 rd rs1 rs2 f = .ok t) : s.Stores rd t := by
  obtain ⟨d, _, _, a, b, hrd, hd, -, -, -, -, ha, -, hcap, rfl⟩ := operate2_ok h
  exact ⟨d, f a b, hrd, hd, fun hs => fits_of_ne_nil (hf a b (hs.ne_nil ha)) hcap, rfl⟩

theorem mulUint64Body_stores {rd rs1 : Int} {k : Word} (h : mulUint64Body rd rs1 k s = .ok t) :
    s.Stores rd t := by
  obtain ⟨d, _, a, hrd, hd, -, -, -, hcap, rfl⟩ := mulUint64Body_ok h
  exact ⟨d, _, hrd, hd, fun _ => fits_of_ne_nil (scalarProduct_ne_nil _ a _) hcap, rfl⟩

/-- SHL needs no capacity check, as its result is as long as its source (42_shift.md R100). -/
theorem shlBody_stores {rd rs1 : Int} {k : Word} (h : shlBody rd rs1 k s = .ok t) : s.Stores rd t := by
  obtain ⟨d, i, a, hrd, hd, -, -, ha, rfl⟩ := shlBody_ok h
  exact ⟨d, _, hrd, hd, fun hs => by simpa [Value.Fits] using hs i a ha, rfl⟩

/-- A literal has at most eight digits, and L_MAX is at least nine (00_scope.md R5). -/
theorem uint64_fills (s : State) (v : Word) : s.Fills (s.initSlot (minrep v.toNat)) := by
  have hlen := minrep_length_le_of_word v
  refine ⟨_, fun _ => fits_of_ne_nil (minrep_ne_nil _) ?_, rfl⟩
  simp only [Params.lMax]
  omega

theorem hexBody_fills {str : List Char8} (h : hexBody str s = .ok t) : s.Fills t := by
  obtain ⟨hne, -, hcap, rfl⟩ := hexBody_ok h
  exact ⟨_, fun _ => fits_of_ne_nil (hexValue_ne_nil _ hne) hcap, rfl⟩

theorem cloneBody_fills {j : Int} (h : cloneBody j s = .ok t) : s.Fills t := by
  obtain ⟨i, v, -, -, hv, rfl⟩ := cloneBody_ok h
  exact ⟨v, fun hs => hs i v hv, rfl⟩

/-- What SHL, ADD, MUL_UINT64, MUL and POW can do (46_control.md R147, R150). -/
theorem operation_next {rd rs1 rs2 : Int} {k : Word} {i : Instr}
    (hi : i ∈ [Instr.shl rd rs1 k, .add rd rs1 rs2, .mulUint64 rd rs1 k, .mul rd rs1 rs2, .pow rd rs1 k])
    (h : exec i s = .next t) :
    (s.seq = .terminated ∧ t = s) ∨ (s.seq ≠ .terminated ∧ ∃ e, t = s.raise e) ∨
      (s.seq = .executing ∧ s.Stores rd t) := by
  simp only [List.mem_cons, List.not_mem_nil, or_false] at hi
  obtain rfl | rfl | rfl | rfl | rfl := hi
  · exact (asOperation_next h).imp_right (.imp_right (.imp_right shlBody_stores))
  · exact (asOperation_next h).imp_right (.imp_right (.imp_right
      (operate2_stores fun _ b ha => addValues_ne_nil ha b)))
  · exact (asOperation_next h).imp_right (.imp_right (.imp_right mulUint64Body_stores))
  · exact (asOperation_next h).imp_right (.imp_right (.imp_right
      (operate2_stores fun _ b ha => mulValues_ne_nil ha b)))
  · exact (asOperation_next h).imp_right (.imp_right (.imp_right
      (operate1_stores fun _ ha => power_ne_nil _ ha _)))

/-- What UINT64, HEX_STRING and CLONE can do (46_control.md R147, R149). -/
theorem initializer_next {v : Word} {str : List Char8} {j : Int} {i : Instr}
    (hi : i ∈ [Instr.uint64 v, .hexString str, .clone j]) (h : exec i s = .next t) :
    (s.seq = .terminated ∧ t = s) ∨ (s.seq ≠ .terminated ∧ ∃ e, t = s.raise e) ∨
      (s.seq = .initializing ∧ s.Fills t) := by
  simp only [List.mem_cons, List.not_mem_nil, or_false] at hi
  obtain rfl | rfl | rfl := hi
  · exact (asInitializer_next h).imp_right (.imp_right (.imp_right fun hb => by
      cases hb; exact uint64_fills s v))
  · exact (asInitializer_next h).imp_right (.imp_right (.imp_right hexBody_fills))
  · exact (asInitializer_next h).imp_right (.imp_right (.imp_right cloneBody_fills))

/-- The effects an event can have on the state (46_control.md R147). -/
inductive Effect (s : State) : State → Prop where
  /-- After TERMINATED an event has none (R153). -/
  | nothing : s.seq = .terminated → Effect s s
  /-- An error ends the session (60_exceptions.md R170). -/
  | error (k : ErrorKind) : Effect s (s.raise k)
  /-- CNT makes the register file (R148). -/
  | counted (n : Nat) {t : State} : s.seq = .awaitingCount → countBody n s = .ok t → Effect s t
  /-- An initializer fills the next slot (R149). -/
  | filled {t : State} : s.seq = .initializing → s.Fills t → Effect s t
  /-- An operation stores its result (R150). -/
  | stored (rd : Int) {t : State} : s.seq = .executing → s.Stores rd t → Effect s t
  /-- DUMP appends the lines of the slots (R151). -/
  | printed (ls : List Line) : s.seq = .executing → s.linesFrom s.count 0 = .ok ls → Effect s (s.emit ls)
  /-- END ends the session with success (R152). -/
  | finished : s.seq = .executing → Effect s { s with seq := .terminated, fail := false, err := 0#4 }

/-- The three outcomes of a command's class check as effects, given what its body does. -/
theorem effect_of_next {P : Prop} (hP : P → Effect s t)
    (h : (s.seq = .terminated ∧ t = s) ∨ (s.seq ≠ .terminated ∧ ∃ e, t = s.raise e) ∨ P) : Effect s t := by
  obtain ⟨hq, rfl⟩ | ⟨-, e, rfl⟩ | hp := h
  · exact .nothing hq
  · exact .error e
  · exact hP hp

theorem operation_effect (rd rs1 rs2 : Int) (k : Word) {i : Instr}
    (hi : i ∈ [Instr.shl rd rs1 k, .add rd rs1 rs2, .mulUint64 rd rs1 k, .mul rd rs1 rs2, .pow rd rs1 k])
    (h : exec i s = .next t) : Effect s t :=
  effect_of_next (fun ⟨hq, hs⟩ => .stored rd hq hs) (operation_next hi h)

theorem initializer_effect (v : Word) (str : List Char8) (j : Int) {i : Instr}
    (hi : i ∈ [Instr.uint64 v, .hexString str, .clone j]) (h : exec i s = .next t) : Effect s t :=
  effect_of_next (fun ⟨hq, hf⟩ => .filled hq hf) (initializer_next hi h)

theorem exec_effect {i : Instr} (h : exec i s = .next t) : Effect s t := by
  cases i with
  | cnt n => exact effect_of_next (fun ⟨hq, hb⟩ => .counted n hq hb) (asCount_next h)
  | uint64 v => exact initializer_effect v [] 0 (by simp) h
  | hexString str => exact initializer_effect 0 str 0 (by simp) h
  | clone j => exact initializer_effect 0 [] j (by simp) h
  | shl rd rs1 k => exact operation_effect rd rs1 0 k (by simp) h
  | add rd rs1 rs2 => exact operation_effect rd rs1 rs2 0 (by simp) h
  | mulUint64 rd rs1 k => exact operation_effect rd rs1 0 k (by simp) h
  | mul rd rs1 rs2 => exact operation_effect rd rs1 rs2 0 (by simp) h
  | pow rd rs1 k => exact operation_effect rd rs1 0 k (by simp) h
  | dump =>
    refine effect_of_next (fun ⟨hq, hb⟩ => ?_) (asOperation_next h)
    obtain ⟨ls, hls, rfl⟩ := dumpBody_ok hb
    exact .printed ls hq hls
  | endSession =>
    refine effect_of_next (fun ⟨hq, hb⟩ => ?_) (asOperation_next h)
    cases hb
    exact .finished hq

theorem onUnrecognized_effect (s : State) : Effect s (onUnrecognized s) := by
  unfold onUnrecognized
  split
  exacts [.error _, .error _, .error _, .nothing ‹_›]

theorem onMalformed_effect (s : State) : Effect s (onMalformed s) := by
  unfold onMalformed
  split
  exacts [.error _, .error _, .error _, .nothing ‹_›]

theorem onTruncated_effect (s : State) : Effect s (onTruncated s) := by
  unfold onTruncated
  split
  exacts [.error _, .error _, .error _, .nothing ‹_›]

/-- The end of input is taken as a truncated command is (46_control.md R147). -/
theorem onEndOfInput_eq (s : State) : onEndOfInput s = onTruncated s := rfl

theorem deliver_effect {ev : Event} (h : deliver ev s = .next t) : Effect s t := by
  cases ev with
  | cmd i => exact exec_effect h
  | unrecognized => cases h; exact onUnrecognized_effect s
  | malformed => cases h; exact onMalformed_effect s
  | truncated => cases h; exact onTruncated_effect s
  | eoi => cases h; exact onTruncated_effect s

/-- What a step can do: nothing, a reset, or the effect of one event with the rest still pending. -/
theorem step_next (h : step s = .next t) :
    (s.inbox = [] ∧ t = s) ∨
    (∃ rest, s.inbox = .reset :: rest ∧ t = (s.withInbox rest).hostReset) ∨
    (∃ rest, Effect (s.withInbox rest) t) := by
  obtain ⟨hin, hs⟩ | ⟨rest, hin, hs⟩ | ⟨ev, rest, -, hs⟩ := step_cases s
  · rw [hs] at h; cases h; exact .inl ⟨hin, rfl⟩
  · rw [hs] at h; cases h; exact .inr (.inl ⟨rest, hin, rfl⟩)
  · exact .inr (.inr ⟨rest, deliver_effect (hs.symm.trans h)⟩)

end Sys2Proof.Machine
end

section
/-! SUPPORT. The invariant of the machine: it holds at reset and every effect keeps it. -/

namespace Sys2Proof.Machine

variable {s t : State}

theorem ErrorKind.code_bounds (k : ErrorKind) : 1 ≤ k.code.toNat ∧ k.code.toNat ≤ 9 := by
  cases k <;> decide

theorem State.initSlot_slot_self (h : s.iptr.toNat < s.regs.length) (v : Value) :
    (s.initSlot v).slot s.iptr.toNat = some v :=
  s.writeSlot_slot_self h v

theorem State.initSlot_slot_ne {i : Nat} (h : i ≠ s.iptr.toNat) (v : Value) :
    (s.initSlot v).slot i = s.slot i :=
  s.writeSlot_slot_ne h.symm v

/-- N is at most 65536, whatever the parameters (00_scope.md R5). -/
theorem State.Inv.count_lt (h : s.Inv) : s.count < 65537 :=
  Nat.lt_of_le_of_lt h.count_le s.cfg.nMax.isLt

theorem State.Inv.slotsFit (h : s.Inv) : s.SlotsFit := by
  intro i v hv
  have hi : i < s.iptr.toNat := by
    by_contra hge
    rw [h.unwritten i (Nat.le_of_not_lt hge)] at hv
    cases hv
  obtain ⟨w, hw, hfit⟩ := h.written i hi
  rw [hv] at hw
  cases hw
  exact hfit

/-- Nothing has failed before TERMINATED (10_state.md R29). -/
theorem State.Inv.fail_eq_false (h : s.Inv) (hq : s.seq ≠ .terminated) : s.fail = false := by
  by_contra hf
  exact hq (h.failed (by simpa using hf)).1

theorem State.resetWith_inv (p : Params) : (State.resetWith p).Inv where
  count_le := Nat.zero_le _
  regs_length := rfl
  iptr_le := Nat.le_refl _
  written := fun i hi => absurd hi (Nat.not_lt_zero i)
  unwritten := fun _ _ => rfl
  awaiting := fun _ => ⟨rfl, rfl, rfl⟩
  initializing := by simp
  executing := by simp
  failed := by simp
  not_failed := fun _ => rfl
  out_lines := by simp

/-- The invariant says nothing of the deliveries. -/
theorem State.Inv.withInbox (h : s.Inv) (ds : List Delivery) : (s.withInbox ds).Inv where
  count_le := h.count_le
  regs_length := h.regs_length
  iptr_le := h.iptr_le
  written := h.written
  unwritten := h.unwritten
  awaiting := h.awaiting
  initializing := h.initializing
  executing := h.executing
  failed := h.failed
  not_failed := h.not_failed
  out_lines := h.out_lines

theorem State.hostReset_inv (s : State) : s.hostReset.Inv :=
  (State.resetWith_inv s.cfg).withInbox s.inbox

/-- Ending the session, with an error or with success, keeps the invariant: what it says of the sequencer
states before TERMINATED is void, and FAIL and ERR are set together. -/
theorem State.Inv.terminate (h : s.Inv) {f : Bool} {e : BitVec 4}
    (hf : f = true → 1 ≤ e.toNat ∧ e.toNat ≤ 9) (hn : f = false → e = 0#4) :
    ({ s with seq := .terminated, fail := f, err := e } : State).Inv where
  count_le := h.count_le
  regs_length := h.regs_length
  iptr_le := h.iptr_le
  written := h.written
  unwritten := h.unwritten
  awaiting := by simp
  initializing := by simp
  executing := by simp
  failed := fun hfail => ⟨rfl, hf hfail⟩
  not_failed := hn
  out_lines := h.out_lines

theorem State.Inv.raise (h : s.Inv) (k : ErrorKind) : (s.raise k).Inv :=
  h.terminate (fun _ => k.code_bounds) (by simp)

theorem State.Inv.counted (h : s.Inv) {n : Nat} (hq : s.seq = .awaitingCount)
    (hb : countBody n s = .ok t) : t.Inv := by
  obtain ⟨hn, rfl⟩ := countBody_ok hb
  have hmax := s.cfg.nMax.isLt
  have hcount : (BitVec.ofNat 32 n).toNat = n := by
    rw [BitVec.toNat_ofNat]; exact Nat.mod_eq_of_lt (by omega)
  have hfail := h.fail_eq_false (by simp [hq])
  obtain ⟨-, -, hout⟩ := h.awaiting hq
  exact {
    count_le := hcount.trans_le hn
    regs_length := by simp [State.count, hcount]
    iptr_le := Nat.zero_le _
    written := fun i hi => absurd hi (Nat.not_lt_zero i)
    unwritten := fun i _ => by
      simp only [State.slot, List.getElem?_replicate]
      split <;> rfl
    awaiting := by
      simp only
      split <;> simp
    initializing := by
      simp only
      split
      · simp
      · exact fun _ => ⟨by simp only [State.count, hcount]; exact Nat.pos_of_ne_zero ‹_›, hout⟩
    executing := by
      simp only
      split
      · next hz => simp [hz]
      · simp
    failed := by simp [hfail]
    not_failed := h.not_failed
    out_lines := h.out_lines }

/-- IPTR + 1 does not wrap in INITIALIZING, where IPTR is below N (10_state.md R30). -/
theorem State.Inv.iptr_succ_toNat (h : s.Inv) (hq : s.seq = .initializing) :
    (s.iptr + 1#32).toNat = s.iptr.toNat + 1 := by
  have hmax := h.count_lt
  obtain ⟨hlt, -⟩ := h.initializing hq
  rw [BitVec.toNat_add, BitVec.toNat_ofNat]
  omega

theorem State.Inv.filled (h : s.Inv) (hq : s.seq = .initializing) (hf : s.Fills t) : t.Inv := by
  obtain ⟨v, hfits, rfl⟩ := hf
  have hsucc := h.iptr_succ_toNat hq
  obtain ⟨hlt, hout⟩ := h.initializing hq
  have hfail := h.fail_eq_false (by simp [hq])
  have hreg : s.iptr.toNat < s.regs.length := h.regs_length ▸ hlt
  exact {
    count_le := h.count_le
    regs_length := by simpa using h.regs_length
    iptr_le := by simpa [hsucc] using hlt
    written := fun i hi => by
      rw [State.initSlot_iptr, hsucc] at hi
      rcases Nat.lt_succ_iff_lt_or_eq.mp hi with hi | rfl
      · rw [State.initSlot_slot_ne (Nat.ne_of_lt hi)]
        exact h.written i hi
      · exact ⟨v, State.initSlot_slot_self hreg v, hfits h.slotsFit⟩
    unwritten := fun i hi => by
      rw [State.initSlot_iptr, hsucc] at hi
      rw [State.initSlot_slot_ne (by omega)]
      exact h.unwritten i (by omega)
    awaiting := by
      rw [State.initSlot_seq, hq]
      split <;> simp
    initializing := by
      rw [State.initSlot_seq]
      split
      · simp
      · next hne =>
        refine fun _ => ⟨?_, hout⟩
        have hne' : s.iptr.toNat + 1 ≠ s.count := fun he => hne (BitVec.eq_of_toNat_eq (hsucc.trans he))
        rw [State.initSlot_iptr, State.initSlot_count, hsucc]
        omega
    executing := by
      rw [State.initSlot_seq, hq]
      split
      · exact fun _ => ‹_›
      · simp
    failed := by simp [hfail]
    not_failed := h.not_failed
    out_lines := h.out_lines }

theorem State.Inv.stored (h : s.Inv) {rd : Int} (hq : s.seq = .executing) (hst : s.Stores rd t) :
    t.Inv := by
  obtain ⟨d, v, -, hd, hfits, rfl⟩ := hst
  have hn : s.iptr.toNat = s.count := congrArg BitVec.toNat (h.executing hq)
  have hreg : d < s.regs.length := h.regs_length ▸ hd
  exact {
    count_le := h.count_le
    regs_length := by simpa using h.regs_length
    iptr_le := h.iptr_le
    written := fun i hi => by
      rcases eq_or_ne d i with rfl | hne
      · exact ⟨v, s.writeSlot_slot_self hreg v, hfits h.slotsFit⟩
      · rw [s.writeSlot_slot_ne hne]
        exact h.written i hi
    unwritten := fun i hi => by
      rw [State.writeSlot_iptr] at hi
      rw [s.writeSlot_slot_ne (by omega)]
      exact h.unwritten i hi
    awaiting := h.awaiting
    initializing := h.initializing
    executing := h.executing
    failed := h.failed
    not_failed := h.not_failed
    out_lines := h.out_lines }

/-- DUMP appends only text forms of what the slots hold (46_control.md R151). -/
theorem linesFrom_mem {m i : Nat} {ls : List Line} (h : s.linesFrom m i = .ok ls) {l : Line} (hl : l ∈ ls) :
    ∃ (j : Nat) (v : Value), s.slot j = some v ∧ l = textOf v := by
  obtain ⟨hlen, hget⟩ := linesFrom_ok h
  obtain ⟨j, hj, rfl⟩ := List.mem_iff_getElem.mp hl
  obtain ⟨v, hv, hg⟩ := hget j (hlen ▸ hj)
  exact ⟨i + j, v, hv, by simpa [hj] using hg⟩

theorem State.Inv.printed (h : s.Inv) {ls : List Line} (hq : s.seq = .executing)
    (hls : s.linesFrom s.count 0 = .ok ls) : (s.emit ls).Inv where
  count_le := h.count_le
  regs_length := h.regs_length
  iptr_le := h.iptr_le
  written := h.written
  unwritten := h.unwritten
  awaiting := by simp [hq]
  initializing := by simp [hq]
  executing := h.executing
  failed := h.failed
  not_failed := h.not_failed
  out_lines := fun l hl => by
    rcases List.mem_append.mp hl with hl | hl
    · exact h.out_lines l hl
    · obtain ⟨j, v, hv, rfl⟩ := linesFrom_mem hls hl
      exact ⟨v, h.slotsFit.ne_nil hv, rfl⟩

theorem Effect.keeps_inv (he : Effect s t) (h : s.Inv) : t.Inv := by
  cases he with
  | nothing _ => exact h
  | error k => exact h.raise k
  | counted n hq hb => exact h.counted hq hb
  | filled hq hf => exact h.filled hq hf
  | stored rd hq hs => exact h.stored hq hs
  | printed ls hq hls => exact h.printed hq hls
  | finished _ => exact h.terminate (by simp) (fun _ => rfl)

/-- Settles O3: nothing is written, printed or failed at reset. -/
theorem resetMeetsInvariant : Obligations.ResetMeetsInvariant :=
  State.resetWith_inv

/-- Settles O4: a reset makes a reset state, and each effect of an event keeps the invariant. -/
theorem stepKeepsInvariant : Obligations.StepKeepsInvariant := by
  intro s t h hstep
  obtain ⟨-, rfl⟩ | ⟨rest, -, rfl⟩ | ⟨rest, he⟩ := step_next hstep
  · exact h
  · exact State.hostReset_inv _
  · exact he.keeps_inv (h.withInbox rest)

end Sys2Proof.Machine
end

section
/-! SUPPORT. What the effects leave unchanged. -/

namespace Sys2Proof.Machine

variable {s t : State}

theorem State.Stores.frame {rd : Int} (h : s.Stores rd t) :
    t.cfg = s.cfg ∧ t.nreg = s.nreg ∧ t.iptr = s.iptr ∧ t.out = s.out ∧ t.inbox = s.inbox ∧
      t.regs.length = s.regs.length ∧ t.seq = s.seq ∧ t.fail = s.fail ∧ t.err = s.err := by
  obtain ⟨d, v, -, -, -, rfl⟩ := h
  simp

/-- "A write to one slot never changes another slot" (10_state.md R25). -/
theorem State.Stores.slot_ne {rd : Int} (h : s.Stores rd t) {j : Nat} (hj : (j : Int) ≠ rd) :
    t.slot j = s.slot j := by
  obtain ⟨d, v, rfl, -, -, rfl⟩ := h
  exact s.writeSlot_slot_ne (fun e => hj (by rw [e])) v

theorem State.Fills.frame (h : s.Fills t) :
    t.cfg = s.cfg ∧ t.nreg = s.nreg ∧ t.out = s.out ∧ t.inbox = s.inbox ∧
      t.regs.length = s.regs.length ∧ t.fail = s.fail ∧ t.err = s.err := by
  obtain ⟨v, -, rfl⟩ := h
  simp

/-- The advance of 46_control.md R149. -/
theorem State.Fills.advances (h : s.Fills t) :
    t.iptr = s.iptr + 1#32 ∧ t.seq = if s.iptr + 1#32 = s.nreg then .executing else s.seq := by
  obtain ⟨v, -, rfl⟩ := h
  exact ⟨rfl, rfl⟩

theorem State.Fills.slot_ne (h : s.Fills t) {n : Nat} (hn : n ≠ s.iptr.toNat) : t.slot n = s.slot n := by
  obtain ⟨v, -, rfl⟩ := h
  exact State.initSlot_slot_ne hn v

/-- No event changes a parameter (00_scope.md R5). -/
theorem Effect.cfg_eq (he : Effect s t) : t.cfg = s.cfg := by
  cases he with
  | nothing _ => rfl
  | error k => rfl
  | counted n hq hb => obtain ⟨-, rfl⟩ := countBody_ok hb; rfl
  | filled hq hf => exact hf.frame.1
  | stored rd hq hs => exact hs.frame.1
  | printed ls hq hls => rfl
  | finished _ => rfl

/-- Only CNT in AWAITING_COUNT sets N (10_state.md R22). -/
theorem Effect.count_fixed (he : Effect s t) (hne : s.seq ≠ .awaitingCount) :
    t.nreg = s.nreg ∧ t.regs.length = s.regs.length := by
  cases he with
  | nothing _ => exact ⟨rfl, rfl⟩
  | error k => exact ⟨rfl, rfl⟩
  | counted n hq hb => exact absurd hq hne
  | filled hq hf =>
    obtain ⟨-, hnreg, -, -, hlen, -⟩ := hf.frame
    exact ⟨hnreg, hlen⟩
  | stored rd hq hs =>
    obtain ⟨-, hnreg, -, -, -, hlen, -⟩ := hs.frame
    exact ⟨hnreg, hlen⟩
  | printed ls hq hls => exact ⟨rfl, rfl⟩
  | finished _ => exact ⟨rfl, rfl⟩

/-- Settles O5: only CNT, which needs AWAITING_COUNT, and a reset write NREG or make slots. -/
theorem countIsFixedForTheSession : Obligations.CountIsFixedForTheSession := by
  refine ⟨fun s t hstep => ?_, fun s t hne hreset hstep => ?_⟩
  · obtain ⟨-, rfl⟩ | ⟨rest, -, rfl⟩ | ⟨rest, he⟩ := step_next hstep
    · rfl
    · rfl
    · exact he.cfg_eq
  · obtain ⟨-, rfl⟩ | ⟨rest, hin, -⟩ | ⟨rest, he⟩ := step_next hstep
    · exact ⟨rfl, rfl⟩
    · exact absurd hin (hreset rest)
    · exact he.count_fixed hne

/-- Settles O34: an operation does nothing, takes an error or stores in slot `rd`. -/
theorem operationFrame : Obligations.OperationFrame := by
  intro rd rs1 rs2 k s t i hi h
  obtain ⟨-, rfl⟩ | ⟨-, e, rfl⟩ | ⟨-, hs⟩ := operation_next hi h
  · exact ⟨rfl, rfl, rfl, rfl, rfl, rfl, fun _ _ => rfl, .inl ⟨rfl, rfl, rfl⟩⟩
  · exact ⟨rfl, rfl, rfl, rfl, rfl, rfl, fun _ _ => rfl, .inr ⟨rfl, rfl, rfl⟩⟩
  · obtain ⟨hcfg, hnreg, hiptr, hout, hinbox, hlen, hstatus⟩ := hs.frame
    exact ⟨hcfg, hnreg, hiptr, hout, hinbox, hlen, fun _ hj => hs.slot_ne hj, .inl hstatus⟩

/-- Settles O35: an initializer does nothing, takes an error or fills slot IPTR. -/
theorem initializerFrame : Obligations.InitializerFrame := by
  intro v str j s t i hi h
  obtain ⟨hq, rfl⟩ | ⟨-, e, rfl⟩ | ⟨hq, hf⟩ := initializer_next hi h
  · exact ⟨rfl, rfl, rfl, rfl, rfl, fun _ _ => rfl, .inl ⟨hq, rfl⟩⟩
  · exact ⟨rfl, rfl, rfl, rfl, rfl, fun _ _ => rfl, .inr (.inr ⟨rfl, rfl, rfl, rfl⟩)⟩
  · obtain ⟨hcfg, hnreg, hout, hinbox, hlen, hfail, herr⟩ := hf.frame
    obtain ⟨hiptr, hseq⟩ := hf.advances
    exact ⟨hcfg, hnreg, hout, hinbox, hlen, fun _ hn => hf.slot_ne hn,
      .inr (.inl ⟨hq, hfail, herr, hiptr, hq ▸ hseq⟩)⟩

end Sys2Proof.Machine
end

section
/-! SUPPORT. The reset values, and STATUS, NREG and IPTR as the host reads them. -/

namespace Sys2Proof.Machine

variable {s t : State}

/-- CNT within N_MAX makes N Uninit slots (46_control.md R148). -/
theorem countBody_of_le {n : Nat} (h : n ≤ s.cfg.nMax.val) :
    countBody n s = .ok { s with
      nreg := BitVec.ofNat 32 n
      regs := List.replicate n none
      iptr := 0#32
      seq := if n = 0 then .executing else .initializing } :=
  if_neg (Nat.not_lt.mpr h)

/-- CNT in AWAITING_COUNT runs its body (46_control.md R147). -/
theorem exec_cnt_awaitingCount (h : s.seq = .awaitingCount) (n : Nat) :
    exec (.cnt n) s = attempt s (countBody n s) :=
  asCount_awaitingCount h _

theorem resetWith_statusWord (p : Params) : (State.resetWith p).statusWord = 0#32 := by
  change (0#24 ++ 0#4 ++ 0#1 ++ BitVec.ofBool false ++ Seq.code .awaitingCount : BitVec 32) = 0#32
  decide

/-- Settles O1: the values are those `resetWith` writes; CNT's body makes the slots. -/
theorem resetGivesEveryPieceItsValue : Obligations.ResetGivesEveryPieceItsValue := by
  refine ⟨rfl, fun p => ?_, fun p n hn => ?_, fun s i _ hi => readSlot_of_uninit hi⟩
  · exact ⟨rfl, resetWith_statusWord p, rfl, rfl, rfl, rfl, rfl, rfl⟩
  · rw [exec_cnt_awaitingCount rfl, countBody_of_le (s := State.resetWith p) hn, attempt_ok]
    exact ⟨_, rfl, rfl⟩

/-! The fields of STATUS (10_state.md R29). -/

/-- STATUS bit by bit: SEQ in bits 1:0, FAIL in bit 2, bit 3 reserved, ERR from bit 4 on. -/
theorem statusWord_getLsbD (s : State) (i : Nat) :
    s.statusWord.getLsbD i =
      if i < 2 then s.seq.code.getLsbD i
      else if i = 2 then s.fail
      else if i = 3 then false
      else s.err.getLsbD (i - 4) := by
  have hword : s.statusWord.getLsbD i =
      (0#24 ++ s.err ++ 0#1 ++ BitVec.ofBool s.fail ++ s.seq.code : BitVec (24 + 4 + 1 + 1 + 2)).getLsbD i :=
    rfl
  rw [hword]
  simp only [BitVec.getLsbD_append, BitVec.getLsbD_zero]
  by_cases h2 : i < 2
  · simp [h2]
  by_cases e2 : i = 2
  · subst e2; simp
  by_cases e3 : i = 3
  · subst e3; simp
  simp only [h2, e2, e3, if_false, show ¬ i - 2 < 1 by omega, show ¬ i - 2 - 1 < 1 by omega,
    show i - 2 - 1 - 1 = i - 4 by omega]
  split
  · rfl
  · exact (BitVec.getLsbD_of_ge _ _ (by omega)).symm

theorem statusWord_seq (s : State) : s.statusWord.extractLsb' 0 2 = s.seq.code := by
  apply BitVec.eq_of_getLsbD_eq
  intro i hi
  rw [BitVec.getLsbD_extractLsb', Nat.zero_add, statusWord_getLsbD]
  simp [hi]

theorem statusWord_fail (s : State) : s.statusWord.getLsbD 2 = s.fail := statusWord_getLsbD s 2

theorem statusWord_bit3 (s : State) : s.statusWord.getLsbD 3 = false := statusWord_getLsbD s 3

theorem statusWord_err (s : State) : s.statusWord.extractLsb' 4 4 = s.err := by
  apply BitVec.eq_of_getLsbD_eq
  intro i hi
  rw [BitVec.getLsbD_extractLsb', statusWord_getLsbD, if_neg (by omega), if_neg (by omega),
    if_neg (by omega), Nat.add_sub_cancel_left]
  simp [hi]

theorem statusWord_upper (s : State) : s.statusWord >>> 8 = 0#32 := by
  apply BitVec.eq_of_getLsbD_eq
  intro i hi
  rw [BitVec.getLsbD_ushiftRight, statusWord_getLsbD, if_neg (by omega), if_neg (by omega),
    if_neg (by omega), BitVec.getLsbD_of_ge _ _ (by omega), BitVec.getLsbD_zero]

/-- A register that holds at most 65536 has no bit above bit 16 (10_state.md R30). -/
theorem ushiftRight_17_of_lt {x : BitVec 32} (h : x.toNat < 65537) : x >>> 17 = 0#32 := by
  apply BitVec.eq_of_toNat_eq
  rw [BitVec.toNat_ushiftRight, Nat.shiftRight_eq_div_pow, BitVec.toNat_ofNat]
  omega

/-- Settles O6: STATUS field by field, NREG and IPTR by the invariant's bound on N. -/
theorem statusRegistersReadAsLaidOut : Obligations.StatusRegistersReadAsLaidOut := by
  intro s h
  have hn := h.count_lt
  have hseq := statusWord_seq s
  refine ⟨ushiftRight_17_of_lt hn, ushiftRight_17_of_lt (h.iptr_le.trans_lt hn), fun hq => ?_,
    h.executing, ?_, statusWord_fail s, statusWord_bit3 s, statusWord_err s, statusWord_upper s, ?_⟩
  · obtain ⟨hnreg, hiptr, -⟩ := h.awaiting hq
    exact ⟨hnreg, hiptr⟩
  · rw [hseq]
    cases s.seq <;> rfl
  · rw [statusWord_fail, hseq, statusWord_err]
    intro hf
    obtain ⟨hq, herr, -⟩ := h.failed hf
    refine ⟨by rw [hq]; rfl, fun hz => ?_⟩
    rw [hz] at herr
    exact absurd herr (by decide)

end Sys2Proof.Machine
end

section
/-! SUPPORT. What the effects do to OUT (20_memory.md R45): no effect removes a line, and no body but DUMP's
writes one. -/

namespace Sys2Proof.Machine

variable {s t : State}

theorem State.Stores.out_eq {rd : Int} (h : s.Stores rd t) : t.out = s.out := by
  obtain ⟨d, v, -, -, -, rfl⟩ := h
  rfl

theorem State.Fills.out_eq (h : s.Fills t) : t.out = s.out := by
  obtain ⟨v, -, rfl⟩ := h
  rfl

/-- Every effect leaves the lines of OUT in place; only DUMP's puts lines after them (20_memory.md R45). -/
theorem Effect.out_prefix (he : Effect s t) : s.out <+: t.out := by
  cases he with
  | nothing _ => exact List.prefix_rfl
  | error k => exact List.prefix_rfl
  | counted n hq hb => obtain ⟨-, rfl⟩ := countBody_ok hb; exact List.prefix_rfl
  | filled hq hf => exact hf.out_eq ▸ List.prefix_rfl
  | stored rd hq hs => exact hs.out_eq ▸ List.prefix_rfl
  | printed ls hq hls => exact List.prefix_append s.out ls
  | finished _ => exact List.prefix_rfl

/-- An initializer's body stores in slot IPTR, an operation's in slot `rd`; only DUMP's body appends to OUT. -/
theorem bodyOf_out {i : Instr} (hne : i ≠ .dump) (h : bodyOf i s = .ok t) : t.out = s.out := by
  cases i with
  | cnt n => obtain ⟨-, rfl⟩ := countBody_ok h; rfl
  | uint64 v => cases h; rfl
  | hexString str => exact (hexBody_fills h).out_eq
  | clone j => exact (cloneBody_fills h).out_eq
  | shl rd rs1 k => exact (shlBody_stores h).out_eq
  | add rd rs1 rs2 => exact (operate2_stores (fun _ b ha => addValues_ne_nil ha b) h).out_eq
  | mulUint64 rd rs1 k => exact (mulUint64Body_stores h).out_eq
  | mul rd rs1 rs2 => exact (operate2_stores (fun _ b ha => mulValues_ne_nil ha b) h).out_eq
  | pow rd rs1 k => exact (operate1_stores (fun _ ha => power_ne_nil _ ha _) h).out_eq
  | dump => exact absurd rfl hne
  | endSession => cases h; rfl

theorem exec_out {i : Instr} (hne : i ≠ .dump) (h : exec i s = .next t) : t.out = s.out := by
  obtain ⟨-, rfl⟩ | ⟨-, k, rfl⟩ | ⟨-, hb⟩ := exec_next h
  · rfl
  · rfl
  · exact bodyOf_out hne hb

@[simp] theorem onUnrecognized_out (s : State) : (onUnrecognized s).out = s.out := by
  unfold onUnrecognized
  split <;> rfl

@[simp] theorem onMalformed_out (s : State) : (onMalformed s).out = s.out := by
  unfold onMalformed
  split <;> rfl

@[simp] theorem onTruncated_out (s : State) : (onTruncated s).out = s.out := by
  unfold onTruncated
  split <;> rfl

theorem deliver_out {ev : Event} (hne : ev ≠ .cmd .dump) (h : deliver ev s = .next t) :
    t.out = s.out := by
  cases ev with
  | cmd i => exact exec_out (fun hi => hne (congrArg Event.cmd hi)) h
  | unrecognized => cases h; exact onUnrecognized_out s
  | malformed => cases h; exact onMalformed_out s
  | truncated => cases h; exact onTruncated_out s
  | eoi => cases h; exact onTruncated_out s

/-- Settles O33: no effect of an event removes a line, and no body but DUMP's writes one. -/
theorem outputIsNeverRetracted : Obligations.OutputIsNeverRetracted := by
  refine ⟨fun s t hreset hstep => ?_, fun _ _ _ hne h => deliver_out hne h⟩
  obtain ⟨-, rfl⟩ | ⟨rest, hin, -⟩ | ⟨rest, he⟩ := step_next hstep
  · exact ⟨[], (List.append_nil _).symm⟩
  · exact absurd hin (hreset rest)
  · obtain ⟨ls, hls⟩ := he.out_prefix
    exact ⟨ls, hls.symm⟩

end Sys2Proof.Machine
end

section
/-! SUPPORT. The binary command port read back: what the decoder answers for a header that is in the opcode map,
and the fields and the payload of an encoded command (30_encoding.md R61 to R67). -/

namespace Sys2Proof

theorem decode_of_opcodeOf {h : Word} {op : Opcode} (ho : opcodeOf h = some op) {ps : List Word}
    (hlen : commandWords op h ≤ ps.length + 1) : decode (h :: ps) = .cmd (commandOf op h ps) := by
  simp only [decode, ho]
  exact if_neg (Nat.not_lt.mpr hlen)

/-- Only the header decides that an event is Unrecognized (30_encoding.md R66). -/
theorem decode_eq_unrecognized {h : Word} {ps : List Word} :
    decode (h :: ps) = .unrecognized ↔ opcodeOf h = none := by
  cases ho : opcodeOf h with
  | none => simp [decode, ho]
  | some op =>
    simp only [decode, ho, reduceCtorEq, iff_false]
    split <;> simp

/-! The fields of an encoded header (30_encoding.md R62). -/

/-- An index that fits its field is read back from it (30_encoding.md R62, R63). -/
theorem toNat_ofInt_of_indexFits {i : Int} (hfits : Instr.indexFits i = true) :
    ((BitVec.ofInt 16 i).toNat : Int) = i := by
  simp only [Instr.indexFits, Bool.and_eq_true, decide_eq_true_eq] at hfits
  rw [BitVec.toNat_ofInt]
  omega

theorem fieldRD_indexHeader {rd : Int} (hfits : Instr.indexFits rd = true) (op : BitVec 8) (rs1 rs2 : Int) :
    fieldRD (indexHeader op rd rs1 rs2) = rd := by
  have hfield : (indexHeader op rd rs1 rs2).extractLsb' 32 16 = BitVec.ofInt 16 rd := by
    unfold indexHeader
    rw [BitVec.extractLsb'_append_eq_of_le (by decide), BitVec.extractLsb'_append_eq_of_le (by decide)]
    exact BitVec.extractLsb'_append_eq_right
  rw [fieldRD, hfield, toNat_ofInt_of_indexFits hfits]

theorem fieldRS1_indexHeader {rs1 : Int} (hfits : Instr.indexFits rs1 = true) (op : BitVec 8) (rd rs2 : Int) :
    fieldRS1 (indexHeader op rd rs1 rs2) = rs1 := by
  have hfield : (indexHeader op rd rs1 rs2).extractLsb' 16 16 = BitVec.ofInt 16 rs1 := by
    unfold indexHeader
    rw [BitVec.extractLsb'_append_eq_of_le (by decide)]
    exact BitVec.extractLsb'_append_eq_right
  rw [fieldRS1, hfield, toNat_ofInt_of_indexFits hfits]

theorem fieldRS2_indexHeader {rs2 : Int} (hfits : Instr.indexFits rs2 = true) (op : BitVec 8) (rd rs1 : Int) :
    fieldRS2 (indexHeader op rd rs1 rs2) = rs2 := by
  have hfield : (indexHeader op rd rs1 rs2).extractLsb' 0 16 = BitVec.ofInt 16 rs2 :=
    BitVec.extractLsb'_append_eq_right
  rw [fieldRS2, hfield, toNat_ofInt_of_indexFits hfits]

/-! The characters of HEX_STRING (30_encoding.md R63). -/

/-- Character `r` of a payload word stands in bits `63 - 8r : 56 - 8r`. -/
theorem packWord_char (cs : List Char8) {r : Nat} (hr : r < 8) :
    (packWord cs).extractLsb' (56 - 8 * r) 8 = cs.getD r 0#8 := by
  unfold packWord
  interval_cases r
  all_goals repeat rw [BitVec.extractLsb'_append_eq_of_le (by decide)]
  · exact BitVec.extractLsb'_eq_self
  all_goals exact BitVec.extractLsb'_append_eq_right

theorem payloadChar_packChars (cs : List Char8) (ws : List Word) {c : Nat} (hc : c < cs.length) :
    payloadChar (packChars cs ++ ws) c = cs.getD c 0#8 := by
  have hq : c / 8 < (packChars cs).length := by
    simp only [packChars, charWords, List.length_map, List.length_range]
    omega
  have hword : (packChars cs ++ ws).getD (c / 8) 0#64 = packWord (cs.drop (8 * (c / 8))) := by
    rw [List.getD_append _ _ _ _ hq, List.getD_eq_getElem _ _ hq]
    simp [packChars]
  rw [payloadChar, hword, packWord_char _ (Nat.mod_lt c (by decide))]
  simp only [List.getD_eq_getElem?_getD, List.getElem?_drop, Nat.div_add_mod]

/-- The payload words give the characters back, whatever words follow them. -/
theorem unpackChars_packChars (cs : List Char8) (ws : List Word) :
    unpackChars cs.length (packChars cs ++ ws) = cs := by
  apply List.ext_getElem
  · simp [unpackChars]
  · intro c hc hc'
    simp only [unpackChars, List.getElem_map, List.getElem_range, payloadChar_packChars cs ws hc']
    exact List.getD_eq_getElem _ _ hc'

/-! An encoded command, whatever words follow it. -/

/-- How many words an encoded command takes (30_encoding.md R64). -/
theorem eventWords_encode : ∀ i : Instr, i.wf = true → eventWords (encode i) = (encode i).length
  | .cnt n => Laws.EncodedLength.cnt n
  | .uint64 v => Laws.EncodedLength.uint64 v
  | .hexString s => Laws.EncodedLength.hexString s
  | .clone j => Laws.EncodedLength.clone j
  | .shl rd rs1 k => Laws.EncodedLength.shl rd rs1 k
  | .add rd rs1 rs2 => Laws.EncodedLength.add rd rs1 rs2
  | .mulUint64 rd rs1 k => Laws.EncodedLength.mulUint64 rd rs1 k
  | .mul rd rs1 rs2 => Laws.EncodedLength.mul rd rs1 rs2
  | .pow rd rs1 k => Laws.EncodedLength.pow rd rs1 k
  | .dump => Laws.EncodedLength.dump
  | .endSession => Laws.EncodedLength.endSession

/-- A command whose header is in the map, and whose record the fields and the payload give, is read back with
exactly its words taken. -/
theorem decode_encode_of_header {i : Instr} (hwf : i.wf = true) {h : Word} {ps ws : List Word} {op : Opcode}
    (henc : encode i = h :: ps) (ho : opcodeOf h = some op) (hrecord : commandOf op h (ps ++ ws) = i) :
    decode (encode i ++ ws) = .cmd i ∧ afterEvent (encode i ++ ws) = ws := by
  have hwords : commandWords op h = (h :: ps).length := by
    rw [← eventWords_of_opcodeOf ho ps, ← henc]
    exact eventWords_encode i hwf
  rw [henc, List.cons_append]
  constructor
  · rw [decode_of_opcodeOf ho, hrecord]
    simp only [hwords, List.length_cons, List.length_append]
    omega
  · rw [afterEvent, eventWords_of_opcodeOf ho, hwords]
    exact List.drop_left

/-- Settles O41: each command's header is in the map, and its fields and payload give the operands back. -/
theorem decodeReadsBackEncode : Obligations.DecodeReadsBackEncode := by
  intro i ws hwf
  have hfits := hwf
  cases i <;> simp only [Instr.wf, Bool.and_eq_true, decide_eq_true_eq] at hfits
  case cnt n =>
    exact decode_encode_of_header hwf rfl opcodeOf_cnt
      (congrArg Instr.cnt ((BitVec.toNat_ofNat n 64).trans (Nat.mod_eq_of_lt hfits)))
  case uint64 v => exact decode_encode_of_header hwf rfl opcodeOf_uint64 rfl
  case hexString s =>
    refine decode_encode_of_header hwf rfl (opcodeOf_lengthHeader _) ?_
    rw [commandOf, fieldLEN_lengthHeader hfits, unpackChars_packChars]
  case clone j =>
    exact decode_encode_of_header hwf rfl (opcodeOf_clone j)
      (congrArg Instr.clone (fieldRS1_indexHeader hfits ..))
  case shl rd rs1 k =>
    refine decode_encode_of_header hwf rfl (opcodeOf_shl rd rs1) ?_
    simp [commandOf, fieldRD_indexHeader, fieldRS1_indexHeader, hfits]
  case add rd rs1 rs2 =>
    refine decode_encode_of_header hwf rfl (opcodeOf_add rd rs1 rs2) ?_
    simp [commandOf, fieldRD_indexHeader, fieldRS1_indexHeader, fieldRS2_indexHeader, hfits]
  case mulUint64 rd rs1 k =>
    refine decode_encode_of_header hwf rfl (opcodeOf_mulUint64 rd rs1) ?_
    simp [commandOf, fieldRD_indexHeader, fieldRS1_indexHeader, hfits]
  case mul rd rs1 rs2 =>
    refine decode_encode_of_header hwf rfl (opcodeOf_mul rd rs1 rs2) ?_
    simp [commandOf, fieldRD_indexHeader, fieldRS1_indexHeader, fieldRS2_indexHeader, hfits]
  case pow rd rs1 k =>
    refine decode_encode_of_header hwf rfl (opcodeOf_pow rd rs1) ?_
    simp [commandOf, fieldRD_indexHeader, fieldRS1_indexHeader, hfits]
  case dump => exact decode_encode_of_header hwf rfl opcodeOf_dump rfl
  case endSession => exact decode_encode_of_header hwf rfl opcodeOf_endSession rfl

end Sys2Proof
end

section
/-! SUPPORT. The opcode map and the reserved encodings (30_encoding.md R64 to R66). -/

namespace Sys2Proof

/-- Words that agree on a field agree on its bits. -/
theorem getLsbD_eq_of_extractLsb'_eq {x y : Word} {lo len i : Nat} (h : x.extractLsb' lo len = y.extractLsb' lo len)
    (hlo : lo ≤ i) (hi : i < lo + len) : x.getLsbD i = y.getLsbD i := by
  have hbit := congrArg (BitVec.getLsbD · (i - lo)) h
  simpa [BitVec.getLsbD_extractLsb', show i - lo < len by omega, Nat.add_sub_cancel' hlo] using hbit

/-- A 64-bit word is given by the five fields of a header (30_encoding.md R62). -/
theorem word_eq_iff_fields {x y : Word} : x = y ↔
    x.extractLsb' 56 8 = y.extractLsb' 56 8 ∧ x.extractLsb' 48 8 = y.extractLsb' 48 8 ∧
    x.extractLsb' 32 16 = y.extractLsb' 32 16 ∧ x.extractLsb' 16 16 = y.extractLsb' 16 16 ∧
    x.extractLsb' 0 16 = y.extractLsb' 0 16 := by
  constructor
  · rintro rfl
    exact ⟨rfl, rfl, rfl, rfl, rfl⟩
  · rintro ⟨hop, hrsv, hrd, hrs1, hrs2⟩
    apply BitVec.eq_of_getLsbD_eq
    intro i hi
    obtain hf | hf | hf | hf | hf :
        56 ≤ i ∨ 48 ≤ i ∧ i < 56 ∨ 32 ≤ i ∧ i < 48 ∨ 16 ≤ i ∧ i < 32 ∨ i < 16 := by omega
    · exact getLsbD_eq_of_extractLsb'_eq hop hf hi
    · exact getLsbD_eq_of_extractLsb'_eq hrsv hf.1 hf.2
    · exact getLsbD_eq_of_extractLsb'_eq hrd hf.1 hf.2
    · exact getLsbD_eq_of_extractLsb'_eq hrs1 hf.1 hf.2
    · exact getLsbD_eq_of_extractLsb'_eq hrs2 (Nat.zero_le i) (by omega)

/-! The rows, one for each opcode byte. -/

/-- The opcode bytes of the map (30_encoding.md R65). -/
theorem opcodeRows_bytes : opcodeRows.map (fun r => fieldOP r.value) =
    [0x01#8, 0x10#8, 0x11#8, 0x12#8, 0x20#8, 0x21#8, 0x22#8, 0x23#8, 0x24#8, 0x30#8, 0x3F#8] := by decide

theorem row_eq_of_byte_eq : ∀ r ∈ opcodeRows, ∀ q ∈ opcodeRows, fieldOP r.value = fieldOP q.value → r = q := by
  decide

/-- Settles O42: a header that matches a row has the row's opcode byte, and no two rows share one. -/
theorem opcodeRowsDoNotOverlap : Obligations.OpcodeRowsDoNotOverlap := by
  intro h r q hr hq hmr hmq
  have hbr : fieldOP h = fieldOP r.value := fieldOP_of_matches hr (beq_iff_eq.mpr hmr)
  have hbq : fieldOP h = fieldOP q.value := fieldOP_of_matches hq (beq_iff_eq.mpr hmq)
  exact row_eq_of_byte_eq r hr q hq (hbr.symm.trans hbq)

/-- A row's opcode byte names the row's opcode (30_encoding.md R64, R65). -/
theorem opcodeByte_of_row {r : OpcodeRow} (hr : r ∈ opcodeRows) {h : Word} (hbyte : fieldOP h = fieldOP r.value) :
    opcodeByte h = some r.op := by
  rw [opcodeByte, hbyte]
  exact find_opcodeByte r hr

/-- A byte that is not in the map makes the header reserved (30_encoding.md R66). -/
theorem opcodeOf_of_reserved_byte {h : Word} (hbyte : fieldOP h ∉ opcodeRows.map fun r => fieldOP r.value) :
    opcodeOf h = none := by
  simp only [opcodeOf, Option.map_eq_none_iff, List.find?_eq_none]
  exact fun r hr hm => hbyte (List.mem_map.mpr ⟨r, hr, (fieldOP_of_matches hr hm).symm⟩)

/-- A byte that is not in the map names no opcode (30_encoding.md R66). -/
theorem opcodeByte_of_reserved_byte {h : Word} (hbyte : fieldOP h ∉ opcodeRows.map fun r => fieldOP r.value) :
    opcodeByte h = none := by
  simp only [opcodeByte, Option.map_eq_none_iff, List.find?_eq_none, beq_iff_eq]
  exact fun r hr he => hbyte (List.mem_map.mpr ⟨r, hr, he⟩)

/-- Under a row's opcode byte no other row can match. -/
theorem opcodeOf_eq_none_of_row {r : OpcodeRow} (hr : r ∈ opcodeRows) {h : Word}
    (hbyte : fieldOP h = fieldOP r.value) : opcodeOf h = none ↔ h &&& r.mask ≠ r.value := by
  simp only [opcodeOf, Option.map_eq_none_iff, List.find?_eq_none]
  constructor
  · exact fun hnone hm => hnone r hr (beq_iff_eq.mpr hm)
  · intro hne q hq hm
    obtain rfl := row_eq_of_byte_eq r hr q hq (hbyte.symm.trans (fieldOP_of_matches hq hm))
    exact hne (beq_iff_eq.mp hm)

/-! How many words an event takes. -/

theorem afterEvent_of_opcodeByte {h : Word} {op : Opcode} (hb : opcodeByte h = some op) (ws : List Word) :
    afterEvent (h :: ws) = ws.drop (commandWords op h - 1) := by
  obtain ⟨n, hn⟩ := Nat.exists_eq_succ_of_ne_zero (commandWords_pos op h).ne'
  simp [afterEvent, eventWords, hb, hn]

/-- Opcode bytes whose opcodes all have `n` payload words take `n` words after the header. -/
theorem afterEvent_of_byte_mem {bytes : List (BitVec 8)} {ops : List Opcode} {h : Word} {n : Nat}
    (hrows : ∀ b ∈ bytes, ∃ r ∈ opcodeRows, b = fieldOP r.value ∧ r.op ∈ ops)
    (hops : ∀ op ∈ ops, commandWords op h = 1 + n) (hb : fieldOP h ∈ bytes) (ws : List Word) :
    afterEvent (h :: ws) = ws.drop n := by
  obtain ⟨r, hr, hbyte, hop⟩ := hrows _ hb
  rw [afterEvent_of_opcodeByte (opcodeByte_of_row hr hbyte), hops _ hop, Nat.add_sub_cancel_left]

/-- Settles O51: the byte names the row, and the row's opcode the number of words. -/
theorem opcodeByteDecidesTheLength : Obligations.OpcodeByteDecidesTheLength := by
  intro h ws
  refine ⟨fun hb => ?_, fun hb => ?_, fun hb => ?_, fun hb => ?_⟩
  · exact afterEvent_of_byte_mem (ops := [.cnt, .uint64, .shl, .mulUint64, .pow]) (by decide)
      (by simp [commandWords]) hb ws
  · exact afterEvent_of_byte_mem (bytes := [0x11#8]) (ops := [.hexString]) (by decide)
      (by simp [commandWords, charWords, fieldLEN]) (List.mem_singleton.mpr hb) ws
  · exact afterEvent_of_byte_mem (n := 0) (ops := [.clone, .add, .mul, .dump, .endSession]) (by decide)
      (by simp [commandWords]) hb ws
  · rw [← opcodeRows_bytes] at hb
    refine ⟨decode_eq_unrecognized.mpr (opcodeOf_of_reserved_byte hb), ?_⟩
    simp [afterEvent, eventWords, opcodeByte_of_reserved_byte hb]

/-! The must-be-zero fields (30_encoding.md R65, R66). -/

/-- The opcode bytes under which bits 47:32 must be zero: field RD, or RSV of a HEX_STRING header. -/
def zeroRDBytes : List (BitVec 8) := [0x01#8, 0x10#8, 0x11#8, 0x12#8, 0x30#8, 0x3F#8]

/-- The opcode bytes under which field RS1 must be zero. -/
def zeroRS1Bytes : List (BitVec 8) := [0x01#8, 0x10#8, 0x30#8, 0x3F#8]

/-- The opcode bytes under which field RS2 must be zero. -/
def zeroRS2Bytes : List (BitVec 8) := [0x01#8, 0x10#8, 0x12#8, 0x20#8, 0x22#8, 0x24#8, 0x30#8, 0x3F#8]

/-- A row's mask on one field of `n` bits: all ones where it takes the field, zeros where it leaves it free. -/
def maskOf (taken : Bool) (n : Nat) : BitVec n := if taken then BitVec.allOnes n else 0#n

theorem and_maskOf_eq_zero {n : Nat} {taken : Bool} {x : BitVec n} :
    x &&& maskOf taken n = 0#n ↔ (taken = true → x = 0#n) := by
  cases taken <;> simp [maskOf, BitVec.and_allOnes]

/-- Each row's value is its opcode byte with zeros, and its mask takes the opcode byte and the must-be-zero fields. -/
theorem row_fields : ∀ r ∈ opcodeRows,
    r.value.extractLsb' 48 8 = 0#8 ∧ r.value.extractLsb' 32 16 = 0#16 ∧
    r.value.extractLsb' 16 16 = 0#16 ∧ r.value.extractLsb' 0 16 = 0#16 ∧
    r.mask.extractLsb' 48 8 = maskOf true 8 ∧
    r.mask.extractLsb' 32 16 = maskOf (zeroRDBytes.contains (fieldOP r.value)) 16 ∧
    r.mask.extractLsb' 16 16 = maskOf (zeroRS1Bytes.contains (fieldOP r.value)) 16 ∧
    r.mask.extractLsb' 0 16 = maskOf (zeroRS2Bytes.contains (fieldOP r.value)) 16 := by
  decide

/-- A header under a row's opcode byte matches the row exactly when its must-be-zero fields are zero. -/
theorem matches_iff_fields {r : OpcodeRow} (hr : r ∈ opcodeRows) {h : Word} (hbyte : fieldOP h = fieldOP r.value) :
    h &&& r.mask = r.value ↔
      h.extractLsb' 48 8 = 0#8 ∧ (fieldOP h ∈ zeroRDBytes → h.extractLsb' 32 16 = 0#16) ∧
      (fieldOP h ∈ zeroRS1Bytes → h.extractLsb' 16 16 = 0#16) ∧
      (fieldOP h ∈ zeroRS2Bytes → h.extractLsb' 0 16 = 0#16) := by
  obtain ⟨vrsv, vrd, vrs1, vrs2, mrsv, mrd, mrs1, mrs2⟩ := row_fields r hr
  have hop : h.extractLsb' 56 8 &&& r.mask.extractLsb' 56 8 = r.value.extractLsb' 56 8 := by
    change fieldOP h &&& fieldOP r.mask = fieldOP r.value
    rw [fieldOP_mask r hr, BitVec.and_allOnes, hbyte]
  simp only [word_eq_iff_fields, BitVec.extractLsb'_and, hop, true_and, vrsv, vrd, vrs1, vrs2, mrsv, mrd, mrs1,
    mrs2, and_maskOf_eq_zero, ← hbyte, List.contains_iff_mem, forall_const]

theorem decode_eq_unrecognized_iff_fields (h : Word) (ws : List Word) :
    decode (h :: ws) = .unrecognized ↔
      fieldOP h ∉ opcodeRows.map (fun r => fieldOP r.value) ∨ h.extractLsb' 48 8 ≠ 0#8 ∨
      (fieldOP h ∈ zeroRDBytes ∧ h.extractLsb' 32 16 ≠ 0#16) ∨
      (fieldOP h ∈ zeroRS1Bytes ∧ h.extractLsb' 16 16 ≠ 0#16) ∨
      (fieldOP h ∈ zeroRS2Bytes ∧ h.extractLsb' 0 16 ≠ 0#16) := by
  rw [decode_eq_unrecognized]
  by_cases hbyte : fieldOP h ∈ opcodeRows.map fun r => fieldOP r.value
  · obtain ⟨r, hr, he⟩ := List.mem_map.mp hbyte
    rw [opcodeOf_eq_none_of_row hr he.symm, ne_eq, matches_iff_fields hr he.symm]
    simp only [hbyte, not_true, false_or]
    tauto
  · exact iff_of_true (opcodeOf_of_reserved_byte hbyte) (.inl hbyte)

/-! How many opcode bytes are reserved. -/

/-- The numbers below `n` that are none of a list of distinct ones. -/
theorem length_filter_range_not_mem {n : Nat} {l : List Nat} (hnodup : l.Nodup) (hlt : ∀ b ∈ l, b < n) :
    ((List.range n).filter (· ∉ l)).length = n - l.length := by
  have hperm : ((List.range n).filter (· ∈ l)).Perm l := by
    refine (List.perm_ext_iff_of_nodup (List.nodup_range.filter _) hnodup).mpr fun b => ?_
    simpa using hlt b
  have hsplit := List.length_eq_length_filter_add (l := List.range n) (· ∈ l)
  rw [hperm.length_eq, List.length_range] at hsplit
  simp only [decide_not]
  omega

theorem fieldOP_byteHeader (b : Nat) : fieldOP (BitVec.ofNat 64 (b * 2 ^ 56)) = BitVec.ofNat 8 b := by
  apply BitVec.eq_of_toNat_eq
  rw [fieldOP, BitVec.extractLsb'_toNat, BitVec.toNat_ofNat, BitVec.toNat_ofNat, Nat.shiftRight_eq_div_pow]
  omega

theorem extractLsb'_byteHeader (b : Nat) {lo len : Nat} (h : lo + len ≤ 56) :
    (BitVec.ofNat 64 (b * 2 ^ 56)).extractLsb' lo len = 0#len := by
  apply BitVec.eq_of_getLsbD_eq
  intro i hi
  rw [BitVec.getLsbD_extractLsb', BitVec.getLsbD_ofNat, Nat.testBit_mul_two_pow]
  simp [show ¬ 56 ≤ lo + i by omega]

/-- A header of a byte and zeros is Unrecognized exactly when the byte is not in the map. -/
theorem decode_byteHeader {b : Nat} (hb : b < 256) :
    decode [BitVec.ofNat 64 (b * 2 ^ 56)] = .unrecognized ↔
      b ∉ opcodeRows.map fun r => (fieldOP r.value).toNat := by
  have hmem : BitVec.ofNat 8 b ∈ opcodeRows.map (fun r => fieldOP r.value) ↔
      b ∈ opcodeRows.map fun r => (fieldOP r.value).toNat := by
    simp [← BitVec.toNat_inj, Nat.mod_eq_of_lt hb]
  rw [decode_eq_unrecognized_iff_fields, fieldOP_byteHeader, extractLsb'_byteHeader b (by decide),
    extractLsb'_byteHeader b (by decide), extractLsb'_byteHeader b (by decide),
    extractLsb'_byteHeader b (by decide), hmem]
  tauto

/-- Settles O43: a header under an opcode byte of the map matches its row or has a must-be-zero bit set; the count
is that of the eleven bytes of the map. -/
theorem reservedHeadersAreUnrecognized : Obligations.ReservedHeadersAreUnrecognized := by
  refine ⟨fun h ws => ?_, ?_⟩
  · have hiff := decode_eq_unrecognized_iff_fields h ws
    rw [opcodeRows_bytes] at hiff
    exact hiff
  · have hbytes : ∀ b ∈ List.range 256, (decode [BitVec.ofNat 64 (b * 2 ^ 56)] == .unrecognized) =
        decide (b ∉ opcodeRows.map fun r => (fieldOP r.value).toNat) := by
      intro b hb
      rw [Bool.eq_iff_iff, beq_iff_eq, decide_eq_true_iff, decode_byteHeader (List.mem_range.mp hb)]
    rw [List.filter_congr hbytes]
    exact length_filter_range_not_mem (by decide) (by decide)

end Sys2Proof
end

section
/-! SUPPORT. Listed words of the port, and the step on each kind of delivery (30_encoding.md R62 to R67,
46_control.md R145, R147). -/

namespace Sys2Proof.Machine

/-- Settles O44: the decoder evaluated on each of the listed word sequences. -/
theorem portWordsDecodeAsListed : Obligations.PortWordsDecodeAsListed := by
  unfold Obligations.PortWordsDecodeAsListed
  decide

/-- The step is the sequencer's on the event `fetch` finds; where the event is a command, it is `exec` of it
(46_control.md R145, R147). -/
theorem step_of_fetch {s : State} {ev : Event} {ds : List Delivery} (h : fetch s.seq s.inbox = .event ev ds) :
    (∀ i, ev = .cmd i → step s = exec i (s.withInbox ds)) ∧ step s = deliver ev (s.withInbox ds) := by
  have hstep : step s = deliver ev (s.withInbox ds) := by rw [step, h]
  refine ⟨fun i hi => ?_, hstep⟩
  rw [hstep, hi, deliver]

/-- Settles O45: each kind of delivery gives the event `fetch` finds, with what the event leaves still pending. -/
theorem stepRunsTheDecodedCommand : Obligations.StepRunsTheDecodedCommand := by
  refine ⟨fun s ws rest hin => ?_, fun s ls rest hin => ?_, fun s ev rest hin => ?_⟩
  · exact step_of_fetch (by rw [hin, fetch_port, restPort_eq])
  · exact step_of_fetch (by rw [hin, fetch_text, restText_eq])
  · exact step_of_fetch (by rw [hin, fetch_event])

end Sys2Proof.Machine
end

section
/-! SUPPORT. Decimal numerals, indices and argument lines read back (30_encoding.md R57, R60). -/

namespace Sys2Proof.Machine

theorem decimalChar_toNat {d : Nat} (hd : d < 10) : (decimalChar d).toNat = 0x30 + d := by
  rw [decimalChar, BitVec.toNat_ofNat]
  omega

theorem isDecimalDigit_decimalChar {d : Nat} (hd : d < 10) : isDecimalDigit (decimalChar d) = true := by
  simp only [isDecimalDigit, decimalChar_toNat hd, Bool.and_eq_true, decide_eq_true_eq]
  omega

/-- The digits put in front of a text are decimal digits. -/
theorem all_isDecimalDigit_decimalDigits (m n : Nat) (acc : List Char8) :
    (decimalDigits m n acc).all isDecimalDigit = acc.all isDecimalDigit := by
  fun_induction decimalDigits m n acc with
  | case1 => rfl
  | case2 m n acc hn => simp [isDecimalDigit_decimalChar hn]
  | case3 m n acc hn ih => simp [ih, isDecimalDigit_decimalChar (Nat.mod_lt n (by decide : 0 < 10))]

theorem decimalDigits_ne_nil {m n : Nat} {acc : List Char8} (h : 0 < m ∨ acc ≠ []) :
    decimalDigits m n acc ≠ [] := by
  fun_induction decimalDigits m n acc with
  | case1 => simpa using h
  | case2 => simp
  | case3 m n acc hn ih => exact ih (.inr (by simp))

/-- Read on from 0, the digits of `n` put in front of a text spell `n` before it. -/
theorem foldl_decimalDigits {m n : Nat} (acc : List Char8) (h : n < 2 ^ m) :
    (decimalDigits m n acc).foldl (fun a c => a * 10 + (c.toNat - 0x30)) 0 =
      acc.foldl (fun a c => a * 10 + (c.toNat - 0x30)) n := by
  fun_induction decimalDigits m n acc with
  | case1 n acc =>
    obtain rfl : n = 0 := by simpa using h
    rfl
  | case2 m n acc hn => simp [decimalChar_toNat hn]
  | case3 m n acc hn ih =>
    rw [Nat.pow_succ] at h
    rw [ih (by omega), List.foldl_cons, decimalChar_toNat (Nat.mod_lt n (by decide))]
    congr 1
    omega

theorem decimal_ne_nil (n : Nat) : decimal n ≠ [] := decimalDigits_ne_nil (.inl (Nat.succ_pos _))

theorem decimal_all (n : Nat) : (decimal n).all isDecimalDigit = true :=
  all_isDecimalDigit_decimalDigits _ _ _

theorem decimalValue_decimal (n : Nat) : decimalValue (decimal n) = n :=
  foldl_decimalDigits [] Nat.lt_log2_self

@[simp] theorem parseNat_decimal (n : Nat) : parseNat (decimal n) = some n := by
  simp [parseNat, decimal_ne_nil, decimal_all, decimalValue_decimal]

theorem parseWord_decimal (n : Nat) :
    parseWord (decimal n) = if n < 2 ^ 64 then some (BitVec.ofNat 64 n) else none := by
  simp [parseWord]

theorem parseShift_decimal (n : Nat) :
    parseShift (decimal n) = some (if n < 2 ^ 64 then BitVec.ofNat 64 n else 0xFFFFFFFFFFFFFFFF#64) := by
  simp [parseShift]

/-- Every 64-bit number is below the bound of its numeral (30_encoding.md R60). -/
@[simp] theorem parseWord_decimal_toNat (k : Word) : parseWord (decimal k.toNat) = some k := by
  rw [parseWord_decimal, if_pos k.isLt, BitVec.ofNat_toNat, BitVec.setWidth_eq]

@[simp] theorem parseShift_decimal_toNat (k : Word) : parseShift (decimal k.toNat) = some k := by
  rw [parseShift_decimal, if_pos k.isLt, BitVec.ofNat_toNat, BitVec.setWidth_eq]

/-- A text that begins with a decimal digit has no sign. -/
theorem parseIndex_of_all {ds : List Char8} (h : ds.all isDecimalDigit = true) :
    parseIndex ds = (parseNat ds).map Int.ofNat := by
  unfold parseIndex
  split
  · exact absurd h (by simp [isDecimalDigit])
  · cases parseNat ds <;> rfl

@[simp] theorem parseIndex_decimalIndex (i : Int) : parseIndex (decimalIndex i) = some i := by
  unfold decimalIndex
  split
  case isTrue hneg =>
    rw [parseIndex, parseNat_decimal]
    exact congrArg some (show -(i.natAbs : Int) = i by omega)
  case isFalse hneg =>
    rw [parseIndex_of_all (decimal_all _), parseNat_decimal]
    exact congrArg some (Int.natAbs_of_nonneg (Int.not_lt.mp hneg))

/-! The fields of an argument line. -/

/-- A field: not empty, and no white space in it. -/
def IsField (f : List Char8) : Prop := f ≠ [] ∧ ∀ c ∈ f, isSpace c = false

theorem isSpace_of_isDecimalDigit {c : Char8} (h : isDecimalDigit c = true) : isSpace c = false := by
  simp only [isDecimalDigit, Bool.and_eq_true, decide_eq_true_eq] at h
  simp only [isSpace, Bool.or_eq_false_iff, beq_eq_false_iff_ne, ← BitVec.toNat_inj, ne_eq, Bool.and_eq_false_iff,
    decide_eq_false_iff_not, BitVec.toNat_ofNat]
  omega

theorem isField_decimal (n : Nat) : IsField (decimal n) :=
  ⟨decimal_ne_nil n, fun c hc => isSpace_of_isDecimalDigit (List.all_eq_true.mp (decimal_all n) c hc)⟩

theorem isField_decimalIndex (i : Int) : IsField (decimalIndex i) := by
  obtain ⟨hne, hspace⟩ := isField_decimal i.natAbs
  unfold decimalIndex
  split
  · refine ⟨by simp, fun c hc => ?_⟩
    obtain rfl | hc := List.mem_cons.mp hc
    · decide
    · exact hspace c hc
  · exact ⟨hne, hspace⟩

/-- Characters that are no white space go to the field read so far. -/
theorem fieldsFrom_append {f : List Char8} (hf : ∀ c ∈ f, isSpace c = false) (w cs : List Char8) :
    fieldsFrom w (f ++ cs) = fieldsFrom (f.reverse ++ w) cs := by
  induction f generalizing w with
  | nil => rfl
  | cons c f ih =>
    obtain ⟨hc, hf⟩ := List.forall_mem_cons.mp hf
    simp [fieldsFrom, hc, ih hf]

theorem fieldsFrom_space {w : List Char8} (hw : w ≠ []) (cs : List Char8) :
    fieldsFrom w (0x20#8 :: cs) = w.reverse :: fieldsFrom [] cs := by
  rw [fieldsFrom, if_pos (by decide), if_neg (by simpa using hw)]

theorem fieldsFrom_end {w : List Char8} (hw : w ≠ []) : fieldsFrom w [] = [w.reverse] := by
  cases w with
  | nil => exact absurd rfl hw
  | cons c w => rfl

/-- A field and the space after it are read as one field. -/
theorem fields_append_space {f : List Char8} (hf : IsField f) (cs : List Char8) :
    fields (f ++ 0x20#8 :: cs) = f :: fields cs := by
  obtain ⟨hne, hspace⟩ := hf
  rw [fields, fieldsFrom_append hspace, List.append_nil, fieldsFrom_space (by simpa using hne), List.reverse_reverse]
  rfl

theorem fields_of_isField {f : List Char8} (hf : IsField f) : fields f = [f] := by
  obtain ⟨hne, hspace⟩ := hf
  have hread := fieldsFrom_append hspace [] []
  rw [List.append_nil, List.append_nil, fieldsFrom_end (by simpa using hne), List.reverse_reverse] at hread
  exact hread

theorem fields_argumentLine {f g h : List Char8} (hf : IsField f) (hg : IsField g) (hh : IsField h) :
    fields (argumentLine f g h) = [f, g, h] := by
  have hline : argumentLine f g h = f ++ 0x20#8 :: (g ++ 0x20#8 :: h) := by simp [argumentLine]
  rw [hline, fields_append_space hf, fields_append_space hg, fields_of_isField hh]

/-- Two indices and a numeral on one line are read by the amount's reader. -/
theorem parseAmountLine_argumentLine (amount : List Char8 → Option Word) (mk : Int → Int → Word → Instr)
    (rd rs1 : Int) (n : Nat) :
    parseAmountLine amount mk (argumentLine (decimalIndex rd) (decimalIndex rs1) (decimal n)) =
      (amount (decimal n)).map (mk rd rs1) := by
  simp only [parseAmountLine, fields_argumentLine (isField_decimalIndex rd) (isField_decimalIndex rs1)
    (isField_decimal n), parseIndex_decimalIndex]
  cases amount (decimal n) <;> rfl

theorem parseIndexLine_argumentLine (mk : Int → Int → Int → Instr) (rd rs1 rs2 : Int) :
    parseIndexLine mk (argumentLine (decimalIndex rd) (decimalIndex rs1) (decimalIndex rs2)) =
      some (mk rd rs1 rs2) := by
  simp only [parseIndexLine, fields_argumentLine (isField_decimalIndex rd) (isField_decimalIndex rs1)
    (isField_decimalIndex rs2), parseIndex_decimalIndex]

end Sys2Proof.Machine
end

section
/-! SUPPORT. What a count line and an opcode line deliver (30_encoding.md R57 to R60). -/

namespace Sys2Proof.Machine

/-- In every state but AWAITING_COUNT the front end reads an opcode line (30_encoding.md R59). -/
theorem textEvent_of_ne {seq : Seq} (hseq : seq ≠ .awaitingCount) (l : Line) (rest : List Line) :
    textEvent seq (l :: rest) = opcodeEvent l rest := by
  cases seq with
  | awaitingCount => exact absurd rfl hseq
  | initializing => rfl
  | executing => rfl
  | terminated => rfl

@[simp] theorem tokenOf_spelling (t : Token) : tokenOf t.spelling = some t := by
  cases t <;> decide

/-- A line is a token exactly when it is one of the spellings. -/
theorem tokenOf_eq_none {l : Line} : tokenOf l = none ↔ l ∉ allTokens.map Token.spelling := by
  simp [tokenOf]

theorem opcodeEvent_of_tokenOf_none {l : Line} (h : tokenOf l = none) (rest : List Line) :
    opcodeEvent l rest = (.unrecognized, rest) := by
  simp [opcodeEvent, h]

theorem opcodeEvent_argument {t : Token} (ht : t.hasArgument = true) (arg : Line) (rest : List Line) :
    opcodeEvent t.spelling (arg :: rest) = (eventOfParse (commandOfText t arg), rest) := by
  simp [opcodeEvent, ht]

theorem opcodeEvent_argument_missing {t : Token} (ht : t.hasArgument = true) :
    opcodeEvent t.spelling [] = (.truncated, []) := by
  simp [opcodeEvent, ht]

theorem opcodeEvent_no_argument {t : Token} (ht : t.hasArgument = false) (rest : List Line) :
    opcodeEvent t.spelling rest = (eventOfParse (commandOfText t []), rest) := by
  simp [opcodeEvent, ht]

/-- Settles O52: such a line is no token's spelling. -/
theorem otherTokensAreUnrecognized : Obligations.OtherTokensAreUnrecognized := by
  have hother : ∀ (seq : Seq) (l : Line) (rest : List Line), seq ≠ .awaitingCount →
      l ∉ allTokens.map Token.spelling → textEvent seq (l :: rest) = (.unrecognized, rest) := by
    intro seq l rest hseq hl
    rw [textEvent_of_ne hseq, opcodeEvent_of_tokenOf_none (tokenOf_eq_none.mpr hl)]
  exact ⟨hother, fun seq rest hseq => ⟨hother seq _ rest hseq (by decide), hother seq _ rest hseq (by decide),
    hother seq _ rest hseq (by decide)⟩⟩

/-! The command that a token delivers is the token's own. -/

/-- The token whose lines deliver the command; none for CNT, MUL and POW (30_encoding.md R58). -/
def tokenOfInstr : Instr → Option Token
  | .uint64 _ => some .uint64
  | .hexString _ => some .hexString
  | .clone _ => some .clone
  | .shl _ _ _ => some .shl
  | .add _ _ _ => some .add
  | .mulUint64 _ _ _ => some .mulUint64
  | .dump => some .dump
  | .endSession => some .endSession
  | .cnt _ | .mul _ _ _ | .pow _ _ _ => none

theorem parseAmountLine_some {amount : List Char8 → Option Word} {mk : Int → Int → Word → Instr} {arg : Line}
    {i : Instr} (h : parseAmountLine amount mk arg = some i) : ∃ rd rs1 k, i = mk rd rs1 k := by
  unfold parseAmountLine at h
  split at h
  · split at h
    · exact ⟨_, _, _, by simpa using h.symm⟩
    · cases h
  · cases h

theorem parseIndexLine_some {mk : Int → Int → Int → Instr} {arg : Line} {i : Instr}
    (h : parseIndexLine mk arg = some i) : ∃ rd rs1 rs2, i = mk rd rs1 rs2 := by
  unfold parseIndexLine at h
  split at h
  · split at h
    · exact ⟨_, _, _, by simpa using h.symm⟩
    · cases h
  · cases h

theorem tokenOfInstr_commandOfText {t : Token} {arg : Line} {i : Instr} (h : commandOfText t arg = some i) :
    tokenOfInstr i = some t := by
  cases t with
  | uint64 => obtain ⟨v, -, rfl⟩ := Option.map_eq_some_iff.mp h; rfl
  | hexString => cases h; rfl
  | clone => obtain ⟨j, -, rfl⟩ := Option.map_eq_some_iff.mp h; rfl
  | shl => obtain ⟨_, _, _, rfl⟩ := parseAmountLine_some h; rfl
  | add => obtain ⟨_, _, _, rfl⟩ := parseIndexLine_some h; rfl
  | mulUint64 => obtain ⟨_, _, _, rfl⟩ := parseAmountLine_some h; rfl
  | dump => cases h; rfl
  | endSession => cases h; rfl

theorem eventOfParse_cmd {o : Option Instr} {i : Instr} (h : eventOfParse o = .cmd i) : o = some i := by
  cases o with
  | none => cases h
  | some j => cases h; rfl

/-- A command delivered by an opcode line is that of a token. -/
theorem tokenOfInstr_of_opcodeEvent {l : Line} {rest : List Line} {i : Instr}
    (h : (opcodeEvent l rest).1 = .cmd i) : ∃ t, tokenOfInstr i = some t := by
  unfold opcodeEvent at h
  split at h
  · cases h
  · split at h
    · split at h
      · cases h
      · exact ⟨_, tokenOfInstr_commandOfText (eventOfParse_cmd h)⟩
    · exact ⟨_, tokenOfInstr_commandOfText (eventOfParse_cmd h)⟩

theorem countEvent_cmd {l : Line} {i : Instr} (h : countEvent l = .cmd i) : ∃ n, i = .cnt n := by
  obtain ⟨n, -, rfl⟩ := Option.map_eq_some_iff.mp (eventOfParse_cmd h)
  exact ⟨n, rfl⟩

/-- Settles O47: a count line delivers CNT only, an opcode line the command of a token, and CNT, MUL and POW
have none. -/
theorem textNeverDeliversMulOrPow : Obligations.TextNeverDeliversMulOrPow := by
  intro seq ls rest i h
  have hev : (textEvent seq ls).1 = .cmd i := congrArg Prod.fst h
  cases ls with
  | nil => cases hev
  | cons l ls =>
    by_cases hseq : seq = .awaitingCount
    · subst hseq
      obtain ⟨n, rfl⟩ := countEvent_cmd hev
      exact ⟨by simp, by simp, fun hne => absurd rfl hne, fun _ => ⟨n, rfl⟩⟩
    · rw [textEvent_of_ne hseq] at hev
      obtain ⟨t, ht⟩ := tokenOfInstr_of_opcodeEvent hev
      have hno : tokenOfInstr i ≠ none := by simp [ht]
      exact ⟨fun _ _ _ hi => hno (hi ▸ rfl), fun _ _ _ hi => hno (hi ▸ rfl), fun _ _ hi => hno (hi ▸ rfl),
        fun he => absurd he hseq⟩

/-! The lines of a command read back. -/

theorem textEvent_argument {seq : Seq} (hseq : seq ≠ .awaitingCount) {t : Token} (ht : t.hasArgument = true)
    {arg : Line} {i : Instr} (hi : commandOfText t arg = some i) (rest : List Line) :
    textEvent seq (t.spelling :: arg :: rest) = (.cmd i, rest) := by
  rw [textEvent_of_ne hseq, opcodeEvent_argument ht, hi, eventOfParse]

theorem textEvent_no_argument {seq : Seq} (hseq : seq ≠ .awaitingCount) {t : Token} (ht : t.hasArgument = false)
    {i : Instr} (hi : commandOfText t [] = some i) (rest : List Line) :
    textEvent seq (t.spelling :: rest) = (.cmd i, rest) := by
  rw [textEvent_of_ne hseq, opcodeEvent_no_argument ht, hi, eventOfParse]

theorem textEvent_count (n : Nat) (rest : List Line) :
    textEvent .awaitingCount (decimal n :: rest) = (.cmd (.cnt n), rest) := by
  rw [textEvent, countEvent, parseNat_decimal, Option.map_some, eventOfParse]

/-- Settles O48: the token's line is found by its spelling, and its argument line read back field by field. -/
theorem textReadsBackTextLines : Obligations.TextReadsBackTextLines := by
  intro i ls rest hls
  refine ⟨?_, fun hne seq hseq => ?_⟩
  · rintro n rfl
    cases hls
    exact textEvent_count n rest
  · cases i with
    | cnt n => exact absurd rfl (hne n)
    | uint64 v => cases hls; exact textEvent_argument hseq rfl (by simp [commandOfText]) rest
    | hexString s => cases hls; exact textEvent_argument hseq rfl rfl rest
    | clone j => cases hls; exact textEvent_argument hseq rfl (by simp [commandOfText]) rest
    | shl rd rs1 k =>
      cases hls
      exact textEvent_argument hseq rfl (by simp [commandOfText, parseAmountLine_argumentLine]) rest
    | add rd rs1 rs2 =>
      cases hls
      exact textEvent_argument hseq rfl (by simp [commandOfText, parseIndexLine_argumentLine]) rest
    | mulUint64 rd rs1 k =>
      cases hls
      exact textEvent_argument hseq rfl (by simp [commandOfText, parseAmountLine_argumentLine]) rest
    | mul rd rs1 rs2 => cases hls
    | pow rd rs1 k => cases hls
    | dump => cases hls; exact textEvent_no_argument hseq rfl rfl rest
    | endSession => cases hls; exact textEvent_no_argument hseq rfl rfl rest

/-- Settles O49: the numeral is read back as its number, and its bound decides the event. -/
theorem textChecksItsNumerals : Obligations.TextChecksItsNumerals := by
  intro seq n rd rs1 rest hseq hn
  have hbig : ¬ n < 2 ^ 64 := Nat.not_lt.mpr hn
  simp only [textEvent_of_ne hseq]
  refine ⟨?_, ?_, ?_, fun t _ ht => opcodeEvent_argument_missing ht⟩
  · rw [opcodeEvent_argument rfl, commandOfText, parseWord_decimal, if_neg hbig]
    rfl
  · rw [opcodeEvent_argument rfl, commandOfText, parseAmountLine_argumentLine, parseWord_decimal, if_neg hbig]
    rfl
  · rw [opcodeEvent_argument rfl, commandOfText, parseAmountLine_argumentLine, parseShift_decimal, if_neg hbig]
    rfl

end Sys2Proof.Machine
end

section
/-! SUPPORT. The canonicalization unit and the shortest Values (40_canonicalization.md R80 to R82). -/

namespace Sys2Proof

/-- One step of the trim: a leading zero digit goes while another digit follows it (40_canonicalization.md R80). -/
theorem canon_cons_cons (d e : Digit) (ds : Value) :
    canon (d :: e :: ds) = if d = 0#8 then canon (e :: ds) else d :: e :: ds := by
  simp only [canon, lzc]
  split <;> rfl

theorem canon_length_le (v : Value) : (canon v).length ≤ v.length := by
  simp [canon]

theorem val_canon (v : Value) : Value.val (canon v) = Value.val v := by
  fun_induction lzc v with
  | case1 => rfl
  | case2 d => rfl
  | case3 e ds ih => rw [canon_cons_cons, if_pos rfl, ih, Value.val_cons 0#8]; simp
  | case4 d e ds hd => rw [canon_cons_cons, if_neg hd]

/-- A Value with nothing to trim: one zero digit, or a first digit that is not zero. -/
def Value.Trimmed (v : Value) : Prop := v = [0#8] ∨ v.head? ≠ some 0#8

theorem canon_trimmed (v : Value) : (canon v).Trimmed := by
  fun_induction lzc v with
  | case1 => exact .inr (by simp [canon])
  | case2 d =>
    by_cases hd : d = 0#8
    · exact .inl (by rw [hd]; rfl)
    · exact .inr (by simpa [canon, lzc] using hd)
  | case3 e ds ih => rwa [canon_cons_cons, if_pos rfl]
  | case4 d e ds hd =>
    rw [canon_cons_cons, if_neg hd]
    exact .inr (by simpa using hd)

theorem canon_eq_self_of_trimmed {v : Value} (h : v.Trimmed) : canon v = v := by
  obtain rfl | hhead := h
  · rfl
  · match v with
    | [] => rfl
    | [_] => rfl
    | d :: e :: ds => rw [canon_cons_cons, if_neg fun hd => hhead (by rw [hd]; rfl)]

theorem canonical_iff_trimmed (v : Value) : v.Canonical ↔ v.Trimmed :=
  ⟨fun h => h ▸ canon_trimmed v, canon_eq_self_of_trimmed⟩

@[simp] theorem canon_canon (v : Value) : canon (canon v) = canon v :=
  canon_eq_self_of_trimmed (canon_trimmed v)

/-- A first digit that is not zero makes the number as large as its weight. -/
theorem pow_le_val_cons {d : Digit} (hd : d ≠ 0#8) (ds : Value) : 256 ^ ds.length ≤ Value.val (d :: ds) := by
  have hpos : 0 < d.toNat := Nat.pos_of_ne_zero fun hz => hd (BitVec.eq_of_toNat_eq hz)
  calc 256 ^ ds.length ≤ d.toNat * 256 ^ ds.length := Nat.le_mul_of_pos_left _ hpos
    _ ≤ Value.val (d :: ds) := Nat.le_add_right _ _

/-- The length of a Value with nothing to trim is that of its number (40_canonicalization.md R82). -/
theorem length_of_trimmed {v : Value} (hne : v ≠ []) (h : v.Trimmed) :
    v.length = Nat.log 256 (Value.val v) + 1 := by
  obtain rfl | hhead := h
  · simp [Value.val_cons]
  · cases v with
    | nil => exact absurd rfl hne
    | cons d ds =>
      have hd : d ≠ 0#8 := fun hz => hhead (by rw [hz]; rfl)
      rw [Nat.log_eq_of_pow_le_of_lt_pow (pow_le_val_cons hd ds) (Value.val_lt (d :: ds)), List.length_cons]

theorem canon_of_val_eq_zero {v : Value} (hne : v ≠ []) (h : Value.val v = 0) : canon v = [0#8] := by
  obtain heq | hhead := canon_trimmed v
  · exact heq
  · have hlen := length_of_trimmed (canon_ne_nil hne) (canon_trimmed v)
    rw [val_canon, h, Nat.log_zero_right] at hlen
    exact Value.eq_of_val_eq hlen (by rw [val_canon, h]; rfl)

theorem canon_head_ne_zero {v : Value} (h : 0 < Value.val v) : (canon v).head? ≠ some 0#8 := by
  obtain heq | hhead := canon_trimmed v
  · have hz : Value.val v = 0 := by rw [← val_canon, heq]; rfl
    exact absurd hz h.ne'
  · exact hhead

/-- Settles O37: the trim keeps the number and the first digit it leaves is not zero, unless it is the only one. -/
theorem canonTrimsAndKeepsTheNumber : Obligations.CanonTrimsAndKeepsTheNumber := fun v hne =>
  ⟨val_canon v, List.length_pos_of_ne_nil (canon_ne_nil hne), canon_length_le v, canon_canon v,
    canon_of_val_eq_zero hne, canon_head_ne_zero, canonical_iff_trimmed v⟩

/-! The shortest Value of a number (00_scope.md R8). -/

theorem minrep_length (x : Nat) : (minrep x).length = Nat.log 256 x + 1 := by
  rw [minrep, rep_length, Nat.log2_eq_log_two, ← Nat.log_pow_left]

@[simp] theorem val_minrep (x : Nat) : Value.val (minrep x) = x := by
  have hlen := minrep_length x
  rw [minrep, rep_length] at hlen
  rw [minrep, Value.val_rep, hlen, Nat.mod_eq_of_lt (Nat.lt_pow_succ_log_self (by decide) x)]

/-- Number and length give a Value, so there is one Value of a number with nothing to trim. -/
theorem eq_minrep_of_canonical {v : Value} (hne : v ≠ []) (h : v.Canonical) : v = minrep (Value.val v) := by
  refine Value.eq_of_val_eq ?_ (val_minrep _).symm
  rw [minrep_length, length_of_trimmed hne ((canonical_iff_trimmed v).mp h)]

theorem canon_eq_minrep {v : Value} (hne : v ≠ []) : canon v = minrep (Value.val v) := by
  rw [← val_canon]
  exact eq_minrep_of_canonical (canon_ne_nil hne) (canon_canon v)

theorem minrep_canonical (x : Nat) : (minrep x).Canonical := by
  rw [Value.Canonical, canon_eq_minrep (minrep_ne_nil x), val_minrep]

/-- Settles O38: a Value with nothing to trim is given by its number, as its length is that number's. -/
theorem minrepIsTheCanonicalValue : Obligations.MinrepIsTheCanonicalValue := by
  refine ⟨fun v hne => canon_eq_minrep hne, fun x => ⟨minrep_canonical x, val_minrep x, ?_, ?_⟩⟩
  · rintro v hne hcanon rfl
    exact eq_minrep_of_canonical hne hcanon
  · rw [minrep_length]
    split
    case isTrue hlt => rw [Nat.log_of_lt hlt]
    case isFalse => rfl

end Sys2Proof
end

section
/-! SUPPORT. The print form (40_canonicalization.md R84): the characters of a Value's digits give them back. -/

namespace Sys2Proof.Machine

theorem hexVal_hexChar {h : Nat} (hh : h < 16) : hexVal (hexChar h) = h := by
  unfold hexChar
  split
  · have hc : (BitVec.ofNat 8 (0x30 + h)).toNat = 0x30 + h := by rw [BitVec.toNat_ofNat]; omega
    rw [hexVal, hc, if_pos (by omega), Nat.add_sub_cancel_left]
  · have hc : (BitVec.ofNat 8 (0x61 + (h - 10))).toNat = 0x61 + (h - 10) := by rw [BitVec.toNat_ofNat]; omega
    rw [hexVal, hc, if_neg (by omega), if_pos (by omega)]
    omega

/-- The two characters of a digit are read back as the digit (40_canonicalization.md R84, 41_construction.md R91). -/
theorem hexPairs_hex2_append (d : Digit) (cs : List Char8) : hexPairs (hex2 d ++ cs) = d :: hexPairs cs := by
  have hd : d.toNat < 256 := d.isLt
  have hdigit : 16 * hexVal (hexChar (d.toNat / 16)) + hexVal (hexChar (d.toNat % 16)) = d.toNat := by
    rw [hexVal_hexChar (by omega), hexVal_hexChar (by omega), Nat.div_add_mod]
  simp only [hex2, List.cons_append, List.nil_append, hexPairs, hdigit, BitVec.ofNat_toNat, BitVec.setWidth_eq]

theorem hexPairs_flatMap_hex2 (v : Value) : hexPairs (v.flatMap hex2) = v := by
  induction v with
  | nil => rfl
  | cons d ds ih => rw [List.flatMap_cons, hexPairs_hex2_append, ih]

theorem textOf_eq_iff_canon_eq {v w : Value} : textOf v = textOf w ↔ canon v = canon w := by
  constructor
  · intro h
    have hchars : (canon v).flatMap hex2 = (canon w).flatMap hex2 :=
      List.append_cancel_left (List.append_cancel_right h)
    rw [← hexPairs_flatMap_hex2 (canon v), hchars, hexPairs_flatMap_hex2]
  · intro h
    rw [textOf, textOf, h]

/-- Settles O39: the characters give back the trimmed Value, which is the shortest of its number. -/
theorem printFormShowsTheNumber : Obligations.PrintFormShowsTheNumber := by
  intro v w hv hw
  rw [textOf_eq_iff_canon_eq]
  constructor
  · intro h
    rw [← val_canon v, h, val_canon]
  · intro h
    rw [canon_eq_minrep hv, canon_eq_minrep hw, h]

end Sys2Proof.Machine
end

section
/-! SUPPORT. The Value that HEX_STRING builds from a valid string (41_construction.md R91). -/

namespace Sys2Proof.Machine

/-- Read on from `a`, a string puts its number after `a`. -/
theorem foldl_hexVal (s : List Char8) (a : Nat) :
    s.foldl (fun a c => a * 16 + hexVal c) a = a * 16 ^ s.length + hexNumber s := by
  induction s generalizing a with
  | nil => simp [hexNumber]
  | cons c s ih =>
    rw [hexNumber, List.foldl_cons, List.foldl_cons, ih, ih (0 * 16 + hexVal c), List.length_cons, Nat.pow_succ]
    ring

theorem hexNumber_cons (c : Char8) (s : List Char8) :
    hexNumber (c :: s) = hexVal c * 16 ^ s.length + hexNumber s := by
  rw [hexNumber, List.foldl_cons, foldl_hexVal, Nat.zero_mul, Nat.zero_add]

/-- The implicit leading `0` nibble does not change the number. -/
theorem hexNumber_padHex (s : List Char8) : hexNumber (padHex s) = hexNumber s := by
  unfold padHex
  split
  · rw [hexNumber_cons, show hexVal 0x30#8 = 0 from rfl, Nat.zero_mul, Nat.zero_add]
  · rfl

theorem hexVal_lt {c : Char8} (hc : isHexDigit c = true) : hexVal c < 16 := by
  simp only [isHexDigit, Bool.or_eq_true, Bool.and_eq_true, decide_eq_true_eq] at hc
  unfold hexVal
  split
  · omega
  · split <;> omega

/-- The digit of two hexadecimal characters. -/
theorem toNat_ofNat_hexVals {c d : Char8} (hc : isHexDigit c = true) (hd : isHexDigit d = true) :
    (BitVec.ofNat 8 (16 * hexVal c + hexVal d)).toNat = 16 * hexVal c + hexVal d := by
  have hcv := hexVal_lt hc
  have hdv := hexVal_lt hd
  rw [BitVec.toNat_ofNat]
  omega

theorem val_hexPairs {s : List Char8} (heven : 2 ∣ s.length) (hs : s.all isHexDigit = true) :
    Value.val (hexPairs s) = hexNumber s := by
  fun_induction hexPairs s with
  | case1 c d rest ih =>
    simp only [List.all_cons, Bool.and_eq_true] at hs
    obtain ⟨hc, hd, hrest⟩ := hs
    have heven' : 2 ∣ rest.length := (Nat.dvd_add_self_right (n := rest.length)).mp heven
    have hweight : 256 ^ (hexPairs rest).length = 16 ^ rest.length := by
      rw [hexPairs_length, show 256 = 16 ^ 2 by rfl, ← Nat.pow_mul, Nat.mul_div_cancel' heven']
    rw [Value.val_cons, hweight, toNat_ofNat_hexVals hc hd, ih heven' hrest, hexNumber_cons, hexNumber_cons,
      List.length_cons, Nat.pow_succ]
    ring
  | case2 c => simp at heven
  | case3 => rfl

theorem padHex_all {s : List Char8} (hs : s.all isHexDigit = true) : (padHex s).all isHexDigit = true := by
  unfold padHex
  split
  · rw [List.all_cons, hs]; rfl
  · exact hs

theorem two_dvd_padHex_length (s : List Char8) : 2 ∣ (padHex s).length := ⟨_, padHex_length s⟩

/-- HEX_STRING's pairs are the `ceil(L/2)` digits of the number the string spells (41_construction.md R91). -/
theorem hexPairs_padHex_eq_rep {s : List Char8} (hs : s.all isHexDigit = true) :
    hexPairs (padHex s) = rep ((s.length + 1) / 2) (hexNumber s) := by
  have hlen : (hexPairs (padHex s)).length = (s.length + 1) / 2 := by
    rw [hexPairs_length, padHex_length, Nat.mul_div_cancel_left _ (by decide)]
  rw [← rep_val (hexPairs (padHex s)), hlen, val_hexPairs (two_dvd_padHex_length s) (padHex_all hs), hexNumber_padHex]

theorem hexPairs_padHex_ne_nil {s : List Char8} (hne : s ≠ []) : hexPairs (padHex s) ≠ [] :=
  hexValue_ne_nil false hne

/-- The Value HEX_STRING builds digit by digit is the closed form's. -/
theorem hexValue_eq_hexStored (hexCanon : Bool) {s : List Char8} (hne : s ≠ []) (hs : s.all isHexDigit = true) :
    hexValue hexCanon s = hexStored hexCanon s := by
  cases hexCanon with
  | false => exact hexPairs_padHex_eq_rep hs
  | true =>
    change canon (hexPairs (padHex s)) = minrep (hexNumber s)
    rw [canon_eq_minrep (hexPairs_padHex_ne_nil hne), val_hexPairs (two_dvd_padHex_length s) (padHex_all hs),
      hexNumber_padHex]

/-- Trimmed or not, the Value prints as its pairs do (40_canonicalization.md R84). -/
theorem canon_hexValue (hexCanon : Bool) (s : List Char8) :
    canon (hexValue hexCanon s) = canon (hexPairs (padHex s)) := by
  cases hexCanon with
  | false => rfl
  | true => exact canon_canon _

end Sys2Proof.Machine
end

section
/-! SUPPORT. What HEX_STRING and DUMP do where they raise no error (41_construction.md R91, 46_control.md R151). -/

namespace Sys2Proof.Machine

variable {s : State}

theorem checkCapacity_of_le {v : Value} (h : v.length ≤ s.cfg.lMax) : s.checkCapacity v = .ok () :=
  if_neg (Nat.not_lt.mpr h)

/-- HEX_STRING in INITIALIZING on a valid string whose Value fits (41_construction.md R91). -/
theorem exec_hexString_initializing {str : List Char8} (hq : s.seq = .initializing) (hne : str ≠ [])
    (hall : str.all isHexDigit = true) (hcap : (hexValue s.cfg.hexCanon str).length ≤ s.cfg.lMax) :
    exec (.hexString str) s = .next (s.initSlot (hexValue s.cfg.hexCanon str)) := by
  have hbody : hexBody str s = .ok (s.initSlot (hexValue s.cfg.hexCanon str)) := by
    have hvalid : ¬ (str.length = 0 ∨ str.all isHexDigit = false) := by simp [hne, hall]
    rw [hexBody, if_neg hvalid]
    simp only [checkCapacity_of_le hcap]
    rfl
  rw [exec, execHexString, asInitializer_initializing hq, hbody, attempt_ok]

/-- Slots that hold Values from slot `i` on give the Values' lines (46_control.md R151). -/
theorem linesFrom_of_slots {vs : List Value} {i : Nat}
    (h : ∀ j (hj : j < vs.length), s.slot (i + j) = some vs[j]) :
    s.linesFrom vs.length i = .ok (vs.map textOf) := by
  induction vs generalizing i with
  | nil => rfl
  | cons v vs ih =>
    have hv : s.readSlot i = .ok v := readSlot_of_slot (h 0 (Nat.succ_pos _))
    have hvs : s.linesFrom vs.length (i + 1) = .ok (vs.map textOf) := ih fun j hj => by
      rw [Nat.add_assoc, Nat.add_comm 1 j]
      exact h (j + 1) (Nat.succ_lt_succ hj)
    rw [List.length_cons, State.linesFrom, hv]
    simp only [bind, Except.bind, hvs]
    rfl

/-- DUMP in EXECUTING with a register file full of Values (46_control.md R151). -/
theorem exec_dump_executing {vs : List Value} (hq : s.seq = .executing) (hn : s.count = vs.length)
    (hregs : s.regs = vs.map some) : exec .dump s = .next (s.emit (vs.map textOf)) := by
  have hlines : s.linesFrom s.count 0 = .ok (vs.map textOf) := by
    rw [hn]
    exact linesFrom_of_slots fun j hj => by simp [State.slot, hregs, hj]
  have hbody : dumpBody s = .ok (s.emit (vs.map textOf)) := by rw [dumpBody, hlines]; rfl
  rw [exec, execDump, asOperation_executing hq, hbody, attempt_ok]

/-- DUMP right after the initializer of the last slot (46_control.md R149, R151). -/
theorem exec_dump_after_last_slot {vs : List Value} (hn : s.count = vs.length + 1)
    (hi : s.iptr.toNat = vs.length) (hregs : s.regs = vs.map some ++ [none]) (r : Value) :
    exec .dump (s.initSlot r) = .next ((s.initSlot r).emit ((vs ++ [r]).map textOf)) := by
  have hlast : s.iptr + 1#32 = s.nreg := by
    apply BitVec.eq_of_toNat_eq
    have hlt := s.nreg.isLt
    rw [State.count] at hn
    rw [BitVec.toNat_add, hi, BitVec.toNat_ofNat]
    omega
  refine exec_dump_executing ?_ ?_ ?_
  · rw [State.initSlot_seq, if_pos hlast]
  · rw [State.initSlot_count, hn, List.length_append, List.length_singleton]
  · simp [hregs, hi]

end Sys2Proof.Machine
end

section
/-! SUPPORT. A hexadecimal string printed back (40_canonicalization.md R86). -/

namespace Sys2Proof.Machine

theorem hexChar_hexVal {c : Char8} (hc : isHexDigit c = true) : hexChar (hexVal c) = lowerHex c := by
  simp only [isHexDigit, Bool.or_eq_true, Bool.and_eq_true, decide_eq_true_eq] at hc
  apply BitVec.eq_of_toNat_eq
  obtain (hdigit | hlower) | hupper := hc
  · have hv : hexVal c = c.toNat - 0x30 := if_pos hdigit.2
    rw [hexChar, hv, if_pos (by omega), lowerHex, if_neg (by omega), BitVec.toNat_ofNat]
    omega
  · have hv : hexVal c = c.toNat - 0x61 + 10 := by rw [hexVal, if_neg (by omega), if_pos hlower.1]
    rw [hexChar, hv, if_neg (by omega), lowerHex, if_neg (by omega), BitVec.toNat_ofNat]
    omega
  · have hv : hexVal c = c.toNat - 0x41 + 10 := by rw [hexVal, if_neg (by omega), if_neg (by omega)]
    rw [hexChar, hv, if_neg (by omega), lowerHex, if_pos hupper, BitVec.toNat_ofNat, BitVec.toNat_add,
      BitVec.toNat_ofNat]
    omega

theorem hex2_hexVals {c d : Char8} (hc : isHexDigit c = true) (hd : isHexDigit d = true) :
    hex2 (BitVec.ofNat 8 (16 * hexVal c + hexVal d)) = [lowerHex c, lowerHex d] := by
  have hdv := hexVal_lt hd
  rw [hex2, toNat_ofNat_hexVals hc hd, show (16 * hexVal c + hexVal d) / 16 = hexVal c by omega,
    show (16 * hexVal c + hexVal d) % 16 = hexVal d by omega, hexChar_hexVal hc, hexChar_hexVal hd]

/-- The pairs of a string print as the string in lower case. -/
theorem flatMap_hex2_hexPairs {s : List Char8} (heven : 2 ∣ s.length) (hs : s.all isHexDigit = true) :
    (hexPairs s).flatMap hex2 = s.map lowerHex := by
  fun_induction hexPairs s with
  | case1 c d rest ih =>
    simp only [List.all_cons, Bool.and_eq_true] at hs
    obtain ⟨hc, hd, hrest⟩ := hs
    have heven' : 2 ∣ rest.length := (Nat.dvd_add_self_right (n := rest.length)).mp heven
    rw [List.flatMap_cons, hex2_hexVals hc hd, ih heven' hrest]
    rfl
  | case2 c => simp at heven
  | case3 => rfl

/-- Only the zero digit prints as `00`. -/
theorem hex2_eq_zeros_iff (d : Digit) :
    hexChar (d.toNat / 16) = 0x30#8 ∧ hexChar (d.toNat % 16) = 0x30#8 ↔ d = 0#8 := by
  constructor
  · rintro ⟨hhigh, hlow⟩
    have hread := hexPairs_hex2_append d []
    rw [hex2, hhigh, hlow] at hread
    exact (List.cons.inj hread).1.symm
  · rintro rfl
    exact ⟨rfl, rfl⟩

/-- Trimming a leading zero digit takes its `00` pair from the characters (40_canonicalization.md R80, R86). -/
theorem flatMap_hex2_canon (v : Value) : (canon v).flatMap hex2 = dropZeroPairs (v.flatMap hex2) := by
  fun_induction lzc v with
  | case1 => rfl
  | case2 d => rfl
  | case3 e ds ih =>
    rw [canon_cons_cons, if_pos rfl, ih]
    rfl
  | case4 d e ds hd =>
    rw [canon_cons_cons, if_neg hd]
    exact (if_neg fun hz => hd ((hex2_eq_zeros_iff d).mp hz)).symm

/-- The line of a Value that HEX_STRING builds (40_canonicalization.md R86). -/
theorem textOf_hexValue (hexCanon : Bool) {str : List Char8} (hall : str.all isHexDigit = true) :
    textOf (hexValue hexCanon str) =
      [0x30#8, 0x78#8] ++ dropZeroPairs ((padHex str).map lowerHex) ++ [newline] := by
  rw [textOf, canon_hexValue, flatMap_hex2_canon,
    flatMap_hex2_hexPairs (two_dvd_padHex_length str) (padHex_all hall)]

/-- A string in lower case and of even length is its own padded string in lower case (40_canonicalization.md R86). -/
theorem map_lowerHex_padHex {str : List Char8} (heven : str.length % 2 = 0)
    (hlower : ∀ c ∈ str, ¬ (0x41 ≤ c.toNat ∧ c.toNat ≤ 0x46)) : (padHex str).map lowerHex = str := by
  rw [padHex, if_neg (by omega)]
  exact (List.map_congr_left fun c hc => if_neg (hlower c hc)).trans (List.map_id str)

/-- Settles O40: HEX_STRING fills the last slot, DUMP prints all slots, and the trimmed digits print as the
string does without its leading zero pairs. -/
theorem hexStringPrintsBack : Obligations.HexStringPrintsBack := by
  refine ⟨?_, fun str heven hlower => map_lowerHex_padHex heven hlower⟩
  intro str vs s hq hn hi hregs hne hall hcap
  rw [← hexValue_eq_hexStored _ hne hall] at hcap
  refine ⟨_, _, exec_hexString_initializing hq hne hall hcap, exec_dump_after_last_slot hn hi hregs _, ?_⟩
  rw [State.emit_out, State.initSlot_out, List.map_append, List.map_singleton, textOf_hexValue _ hall,
    ← List.append_assoc s.out]
  rfl

end Sys2Proof.Machine
end

section
/-! SUPPORT. What UINT64, HEX_STRING and CLONE do in INITIALIZING, by the cases of their operand
(41_construction.md R90 to R93, 46_control.md R149). -/

namespace Sys2Proof.Machine

variable {s : State}

/-- The advance compares 32-bit words; below N the increment does not wrap, so it compares numbers (46_control.md
R149). -/
theorem iptr_succ_eq_nreg_iff (hi : s.iptr.toNat < s.count) :
    s.iptr + 1#32 = s.nreg ↔ s.iptr.toNat + 1 = s.count := by
  have hlt := s.nreg.isLt
  rw [State.count] at hi ⊢
  rw [← BitVec.toNat_inj, BitVec.toNat_add, BitVec.toNat_ofNat]
  omega

/-- Slot IPTR written and the sequencer advanced, with nothing else changed (46_control.md R149). -/
theorem initSlot_initializing (hq : s.seq = .initializing) (hi : s.iptr.toNat < s.count) (v : Value) :
    s.initSlot v = { s with
      regs := s.regs.set s.iptr.toNat (some v)
      iptr := s.iptr + 1#32
      seq := if s.iptr.toNat + 1 = s.count then .executing else .initializing } := by
  have hseq : (s.initSlot v).seq = if s.iptr.toNat + 1 = s.count then .executing else .initializing := by
    simp only [State.initSlot_seq, iptr_succ_eq_nreg_iff hi, hq]
  rw [← hseq]
  rfl

/-- UINT64 in INITIALIZING (41_construction.md R90). -/
theorem exec_uint64_initializing (hq : s.seq = .initializing) (v : Word) :
    exec (.uint64 v) s = .next (s.initSlot (minrep v.toNat)) :=
  asInitializer_initializing hq _

/-- HEX_STRING in INITIALIZING on a valid string whose Value is too long (41_construction.md R91). -/
theorem exec_hexString_of_capacity_lt {str : List Char8} (hq : s.seq = .initializing) (hne : str ≠ [])
    (hall : str.all isHexDigit = true) (hcap : s.cfg.lMax < (hexValue s.cfg.hexCanon str).length) :
    exec (.hexString str) s = .next (s.raise .capacityExceeded) := by
  have hvalid : ¬ (str.length = 0 ∨ str.all isHexDigit = false) := by simp [hne, hall]
  have hcheck : s.checkCapacity (hexValue s.cfg.hexCanon str) = .error .capacityExceeded := if_pos hcap
  have hbody : hexBody str s = .error .capacityExceeded := by
    rw [hexBody, if_neg hvalid]
    simp only [hcheck]
    rfl
  rw [exec, execHexString, asInitializer_initializing hq, hbody, attempt_error]

/-- HEX_STRING in INITIALIZING looks at the characters first (41_construction.md R91, 60_exceptions.md R171). -/
theorem exec_hexString_of_invalid {str : List Char8} (hq : s.seq = .initializing)
    (hbad : str = [] ∨ str.all isHexDigit = false) :
    exec (.hexString str) s = .next (s.raise .invalidHexDigits) := by
  have hbody : hexBody str s = .error .invalidHexDigits := if_pos (hbad.imp_left List.length_eq_zero_iff.mpr)
  rw [exec, execHexString, asInitializer_initializing hq, hbody, attempt_error]

/-- The characters outside the three ranges of 41_construction.md R91 are no hexadecimal digits. -/
theorem isHexDigit_eq_false {c : Char8} (hdigit : ¬ (0x30 ≤ c.toNat ∧ c.toNat ≤ 0x39))
    (hlower : ¬ (0x61 ≤ c.toNat ∧ c.toNat ≤ 0x66)) (hupper : ¬ (0x41 ≤ c.toNat ∧ c.toNat ≤ 0x46)) :
    isHexDigit c = false := by
  simp only [isHexDigit, ← Bool.decide_and, decide_eq_false hdigit, decide_eq_false hlower,
    decide_eq_false hupper, Bool.or_self]

/-- CLONE in INITIALIZING of an index outside `0..N-1` (41_construction.md R92). -/
theorem exec_clone_of_out {j : Int} (hq : s.seq = .initializing) (hj : j < 0 ∨ (s.count : Int) ≤ j) :
    exec (.clone j) s = .next (s.raise .indexOutOfRange) := by
  have hbody : cloneBody j s = .error .indexOutOfRange := by rw [cloneBody, checkIndex_of_out hj]; rfl
  rw [exec, execClone, asInitializer_initializing hq, hbody, attempt_error]

/-- CLONE in INITIALIZING of an Uninit slot (41_construction.md R92). -/
theorem exec_clone_of_uninit {j : Int} (hq : s.seq = .initializing) (h0 : 0 ≤ j) (hj : j < s.count)
    (hslot : s.slot j.toNat = none) : exec (.clone j) s = .next (s.raise .uninitializedRegister) := by
  have hread := readSlot_of_uninit hslot
  have hbody : cloneBody j s = .error .uninitializedRegister := by
    rw [cloneBody, checkIndex_of_lt h0 hj]
    simp only [bind, Except.bind, hread]
  rw [exec, execClone, asInitializer_initializing hq, hbody, attempt_error]

/-- CLONE in INITIALIZING of a slot that holds a Value (41_construction.md R92). -/
theorem exec_clone_of_slot {j : Int} {v : Value} (hq : s.seq = .initializing) (h0 : 0 ≤ j) (hj : j < s.count)
    (hslot : s.slot j.toNat = some v) : exec (.clone j) s = .next (s.initSlot v) := by
  have hread := readSlot_of_slot hslot
  have hbody : cloneBody j s = .ok (s.initSlot v) := by
    rw [cloneBody, checkIndex_of_lt h0 hj]
    simp only [bind, Except.bind, hread]
    rfl
  rw [exec, execClone, asInitializer_initializing hq, hbody, attempt_ok]

/-- CLONE under the invariant: the slots from IPTR on are Uninit (41_construction.md R93). -/
theorem State.Inv.exec_clone_of_iptr_le (h : s.Inv) {j : Int} (hq : s.seq = .initializing)
    (hi : (s.iptr.toNat : Int) ≤ j) (hj : j < s.count) :
    exec (.clone j) s = .next (s.raise .uninitializedRegister) :=
  exec_clone_of_uninit hq (by omega) hj (h.unwritten _ (by omega))

/-- CLONE under the invariant: it fails off the slots below IPTR (41_construction.md R93). -/
theorem State.Inv.exec_clone_of_not_written (h : s.Inv) {j : Int} (hq : s.seq = .initializing)
    (hj : ¬ (0 ≤ j ∧ j < s.iptr.toNat)) : ∃ k, exec (.clone j) s = .next (s.raise k) := by
  by_cases hout : j < 0 ∨ (s.count : Int) ≤ j
  · exact ⟨_, exec_clone_of_out hq hout⟩
  · exact ⟨_, h.exec_clone_of_iptr_le hq (by omega) (by omega)⟩

/-- CLONE under the invariant: it fills slot IPTR from every slot below (41_construction.md R93). -/
theorem State.Inv.exec_clone_of_lt_iptr (h : s.Inv) {j : Int} (hq : s.seq = .initializing)
    (h0 : 0 ≤ j) (hj : j < s.iptr.toNat) : ∃ v, exec (.clone j) s = .next (s.initSlot v) := by
  have hle := h.iptr_le
  obtain ⟨v, hslot, -⟩ := h.written j.toNat (by omega)
  exact ⟨v, exec_clone_of_slot hq h0 (by omega) hslot⟩

/-- CLONE succeeds exactly on the slots below IPTR (41_construction.md R93). -/
theorem State.Inv.exec_clone_fail_eq_false_iff (h : s.Inv) {j : Int} {t : State} (hq : s.seq = .initializing)
    (hexec : exec (.clone j) s = .next t) : t.fail = false ↔ 0 ≤ j ∧ j < s.iptr.toNat := by
  constructor
  · intro hok
    by_contra hj
    obtain ⟨k, hk⟩ := h.exec_clone_of_not_written hq hj
    cases hk.symm.trans hexec
    cases hok
  · rintro ⟨h0, hj⟩
    obtain ⟨v, hv⟩ := h.exec_clone_of_lt_iptr hq h0 hj
    cases hv.symm.trans hexec
    exact h.fail_eq_false (by simp [hq])

/-- Settles O15: the Value is the shortest one of the literal. -/
theorem uint64StoresItsLiteral : Obligations.Uint64StoresItsLiteral := by
  intro v s hq hi
  refine ⟨minrep v.toNat, val_minrep _, List.length_pos_of_ne_nil (minrep_ne_nil _), minrep_length_le_of_word v,
    minrep_canonical _, ?_⟩
  rw [exec_uint64_initializing hq, initSlot_initializing hq hi]

/-- Settles O16: the digits made pair by pair are those of the number, and their count decides the outcome. -/
theorem hexStringStoresItsNumber : Obligations.HexStringStoresItsNumber := by
  intro str s hq hi hne hall r
  have hr : hexValue s.cfg.hexCanon str = r := hexValue_eq_hexStored _ hne hall
  constructor
  · intro hcap
    rw [exec_hexString_initializing hq hne hall (hr ▸ hcap), hr, initSlot_initializing hq hi]
  · intro hcap
    exact exec_hexString_of_capacity_lt hq hne hall (hr ▸ hcap)

/-- Settles O17: the check of the characters comes before the capacity check. -/
theorem hexStringRejectsOtherCharacters : Obligations.HexStringRejectsOtherCharacters := by
  intro str s hq hbad
  refine exec_hexString_of_invalid hq (hbad.imp_right ?_)
  rintro ⟨c, hc, hdigit, hlower, hupper⟩
  exact List.all_eq_false.mpr ⟨c, hc, by simp [isHexDigit_eq_false hdigit hlower hupper]⟩

/-- Settles O18: the index check, the read and the advance, one case for each. -/
theorem cloneCopiesASlot : Obligations.CloneCopiesASlot := by
  intro j s hq hi
  refine ⟨exec_clone_of_out hq, exec_clone_of_uninit hq, fun v h0 hj hslot => ?_⟩
  rw [exec_clone_of_slot hq h0 hj hslot, initSlot_initializing hq hi]

/-- Settles O19: the invariant says which slots hold Values, and those decide what CLONE does. -/
theorem cloneReachesOnlyEarlierSlots : Obligations.CloneReachesOnlyEarlierSlots := by
  intro s h
  have hwritten : ∀ i, i < s.iptr.toNat → ∃ v, s.slot i = some v := fun i hi =>
    (h.written i hi).imp fun _ hv => hv.1
  constructor
  · intro hq
    exact ⟨hwritten, h.unwritten, fun j t => h.exec_clone_fail_eq_false_iff hq,
      fun j => h.exec_clone_of_iptr_le hq, fun j => exec_clone_of_out hq⟩
  · intro hq i hi
    exact hwritten i (by rwa [h.executing hq])

end Sys2Proof.Machine
end

section
/-! SUPPORT. The bit shifter digit by digit: each of its digits is a digit of `val(a) · 2^k`
(42_shift.md R100, R101). -/

namespace Sys2Proof

/-- Digit `t` of `rep n x` is the one of weight `256^(n-1-t)` (00_scope.md R8). -/
theorem rep_getElem (n x t : Nat) (ht : t < (rep n x).length) :
    (rep n x)[t] = BitVec.ofNat 8 (x / 256 ^ (n - 1 - t)) := by
  induction n generalizing t with
  | zero => simp at ht
  | succ n ih =>
    cases t with
    | zero => rfl
    | succ t =>
      simp only [rep, List.getElem_cons_succ, ih]
      congr 3
      omega

theorem Value.getElem_eq_ofNat (a : Value) {t : Nat} (ht : t < a.length) :
    a[t] = BitVec.ofNat 8 (Value.val a / 256 ^ (a.length - 1 - t)) := by
  rw [← rep_getElem _ _ t (by rwa [rep_length])]
  simp only [rep_val]

theorem rep_zero (n : Nat) : rep n 0 = zeros n := by
  induction n with
  | zero => rfl
  | succ n ih => rw [rep, ih, Nat.zero_div]; rfl

theorem ofNat_eight_shiftLeft (y b : Nat) : BitVec.ofNat 8 y <<< b = BitVec.ofNat 8 (y * 2 ^ b) := by
  apply BitVec.eq_of_toNat_eq
  rw [BitVec.toNat_shiftLeft, BitVec.toNat_ofNat, BitVec.toNat_ofNat, Nat.shiftLeft_eq, Nat.mod_mul_mod]

/-- Two neighbouring digits, shifted left by `b` bits and joined: the lower one fills in the `b` bits that the
upper one leaves free (42_shift.md R100). -/
theorem ofNat_eight_join {b : Nat} (hb : b ≤ 8) (y : Nat) :
    BitVec.ofNat 8 (y / 256) <<< b ||| BitVec.ofNat 8 y >>> (8 - b) = BitVec.ofNat 8 (y / 2 ^ (8 - b)) := by
  rw [show y / 256 = y >>> 8 from (Nat.shiftRight_eq_div_pow y 8).symm, ← Nat.shiftRight_eq_div_pow]
  apply BitVec.eq_of_getLsbD_eq
  intro i hi
  simp only [BitVec.getLsbD_or, BitVec.getLsbD_shiftLeft, BitVec.getLsbD_ushiftRight, BitVec.getLsbD_ofNat,
    Nat.testBit_shiftRight]
  by_cases hib : i < b
  · simp [hi, hib, show 8 - b + i < 8 by omega]
  · simp [hi, hib, show ¬ 8 - b + i < 8 by omega, show i - b < 8 by omega,
      show 8 + (i - b) = 8 - b + i by omega]

end Sys2Proof

namespace Sys2Proof.Machine

/-- The byte-level shift makes the digits of `val(a) · 256^B` (42_shift.md R100). -/
theorem shiftedDigit_eq_ofNat (a : Value) (B : Nat) {t : Nat} (ht : t < a.length) :
    shiftedDigit a B t = BitVec.ofNat 8 (Value.val a * 256 ^ B / 256 ^ (a.length - 1 - t)) := by
  unfold shiftedDigit
  split
  · next hin =>
    rw [List.getD_eq_getElem _ _ hin, Value.getElem_eq_ofNat,
      show a.length - 1 - t = a.length - 1 - (t + B) + B by omega, Nat.pow_add, Nat.mul_div_mul_right _ _ (by positivity)]
  · next hout =>
    obtain ⟨c, hc⟩ : ∃ c, B = c + 1 + (a.length - 1 - t) := ⟨B - (a.length - 1 - t) - 1, by omega⟩
    have hdiv : Value.val a * 256 ^ B / 256 ^ (a.length - 1 - t) = Value.val a * 256 ^ c * 256 := by
      rw [hc, Nat.pow_add, Nat.pow_succ, ← Nat.mul_assoc, ← Nat.mul_assoc, Nat.mul_div_cancel _ (by positivity)]
    apply BitVec.eq_of_toNat_eq
    rw [hdiv, BitVec.toNat_ofNat, BitVec.toNat_ofNat, Nat.mul_mod_left]

/-- What stands from weight `256^(m+1)` up after a shift by `b` bits stood from bit `8 - b` of digit `m` up. -/
theorem mul_two_pow_div_pow_succ {b : Nat} (hb : b ≤ 8) (w m : Nat) :
    w * 2 ^ b / 256 ^ (m + 1) = w / 256 ^ m / 2 ^ (8 - b) := by
  have hweight : 256 ^ (m + 1) = 256 ^ m * 2 ^ (8 - b) * 2 ^ b := by
    rw [Nat.mul_assoc, ← Nat.pow_add, Nat.sub_add_cancel hb, Nat.pow_succ]
  rw [hweight, Nat.mul_div_mul_right _ _ (by positivity), Nat.div_div_eq_div_mul]

/-- The shifter computes `rep_n((val(a) · 2^k) mod 256^n)` (42_shift.md R101). -/
theorem shiftLeft_eq_rep (a : Value) (k : Nat) :
    shiftLeft a k = rep a.length ((Value.val a * 2 ^ k) % 256 ^ a.length) := by
  have hb : k % 8 ≤ 8 := (Nat.mod_lt k (by decide)).le
  have hk : Value.val a * 2 ^ k = Value.val a * 256 ^ (k / 8) * 2 ^ (k % 8) := by
    rw [show 256 = 2 ^ 8 by rfl, ← Nat.pow_mul, Nat.mul_assoc, ← Nat.pow_add, Nat.div_add_mod]
  rw [rep_mod _ _ _ le_rfl, hk]
  refine List.ext_getElem (by simp) fun t ht _ => ?_
  have hlt : t < a.length := by simpa using ht
  simp only [rep_getElem, shiftLeft, List.getElem_map, List.getElem_range]
  split
  · next hin =>
    obtain ⟨m, hm⟩ : ∃ m, a.length - 1 - t = m + 1 := ⟨a.length - 1 - (t + 1), by omega⟩
    rw [shiftedDigit_eq_ofNat a _ hlt, shiftedDigit_eq_ofNat a _ hin, hm,
      show a.length - 1 - (t + 1) = m by omega, mul_two_pow_div_pow_succ hb, ← ofNat_eight_join hb,
      Nat.pow_succ, Nat.div_div_eq_div_mul]
  · next hout =>
    rw [shiftedDigit_eq_ofNat a _ hlt, show a.length - 1 - t = 0 by omega, Nat.pow_zero, Nat.div_one, Nat.div_one,
      ofNat_eight_shiftLeft]

end Sys2Proof.Machine
end

section
/-! PROOF. SHL stores the modular shift, and large amounts store zeros (42_shift.md R101). -/

namespace Sys2Proof.Machine

variable {s : State}

/-- SHL in EXECUTING on in-range indices and a source that holds a Value (42_shift.md R100). -/
theorem exec_shl_executing {rd rs1 : Nat} {a : Value} (hq : s.seq = .executing) (hd : rd < s.count)
    (hi : rs1 < s.count) (hslot : s.slot rs1 = some a) (k : Word) :
    exec (.shl rd rs1 k) s = .next (s.writeSlot rd (shiftLeft a k.toNat)) := by
  have hrd : s.checkIndex rd = .ok rd := checkIndex_of_lt (by omega) (by omega)
  have hrs1 : s.checkIndex rs1 = .ok rs1 := checkIndex_of_lt (by omega) (by omega)
  have hread := readSlot_of_slot hslot
  have hbody : shlBody rd rs1 k s = .ok (s.writeSlot rd (shiftLeft a k.toNat)) := by
    rw [shlBody, hrd, hrs1]
    simp only [bind, Except.bind, hread]
    rfl
  rw [exec, execShl, asOperation_executing hq, hbody, attempt_ok]

/-- An amount of at least `8n` bits shifts every bit out (42_shift.md R101). -/
theorem rep_mul_two_pow_of_le (x : Nat) {n k : Nat} (hk : 8 * n ≤ k) :
    rep n ((x * 2 ^ k) % 256 ^ n) = zeros n := by
  have hdvd : 256 ^ n ∣ x * 2 ^ k := by
    rw [show 256 = 2 ^ 8 by rfl, ← Nat.pow_mul]
    exact (Nat.pow_dvd_pow 2 hk).mul_left x
  rw [Nat.mod_eq_zero_of_dvd hdvd, rep_zero]

theorem shiftLeft_eq_zeros {a : Value} {k : Nat} (hk : 8 * a.length ≤ k) : shiftLeft a k = zeros a.length := by
  rw [shiftLeft_eq_rep, rep_mul_two_pow_of_le _ hk]

/-- A register holds at most `2^35` bits, as L_MAX is at most `2^32` (00_scope.md R5, 10_state.md R23). -/
theorem bits_le_of_fits {p : Params} {a : Value} (ha : Value.Fits p.lMax a) : 8 * a.length ≤ 2 ^ 35 := by
  have hmax := p.lMaxOver9.isLt
  have hlen : a.length ≤ p.lMaxOver9.val + 9 := ha.2
  omega

/-- Settles O20: the shifter's closed form, and `8n ≤ 2^35 ≤ 2^64 − 1` for the large amounts. -/
theorem shiftIsModular : Obligations.ShiftIsModular := by
  refine ⟨fun rd rs1 k a s hq hd hi hslot => ?_, fun a k => rep_mul_two_pow_of_le _,
    fun p a k ha hk => (bits_le_of_fits ha).trans hk, fun p a k ha hk => ?_⟩
  · rw [exec_shl_executing hq hd hi hslot, shiftLeft_eq_rep]
    rfl
  · have hbits : 8 * a.length ≤ 2 ^ 64 - 1 := (bits_le_of_fits ha).trans (by decide)
    rw [shiftLeft_eq_zeros (hbits.trans hk), shiftLeft_eq_zeros hbits]

end Sys2Proof.Machine
end

section
/-! SUPPORT. The carry chain digit by digit: after `t` steps it has added the low `t` digits of the operands
(43_add.md R110, R111). -/

namespace Sys2Proof

/-- A Value denotes a number below `256^m` for every `m` from its length on. -/
theorem Value.val_lt_of_length_le {v : Value} {m : Nat} (hle : v.length ≤ m) : Value.val v < 256 ^ m :=
  (Value.val_lt v).trans_le (Nat.pow_le_pow_right (by decide) hle)

/-- A digit of an operand is the digit of that weight of its number (43_add.md R110). -/
theorem lo_eq_val_div_mod (v : Value) (t : Nat) : lo v t = Value.val v / 256 ^ t % 256 := by
  unfold lo
  split
  · next hin =>
    rw [List.getD_eq_getElem _ _ (by omega), Value.getElem_eq_ofNat, BitVec.toNat_ofNat,
      show v.length - 1 - (v.length - 1 - t) = t by omega]
  · next hout =>
    rw [Nat.div_eq_of_lt (Value.val_lt_of_length_le (by omega)), Nat.zero_mod]

/-- The sum of what the low `t` digits of two Values denote. -/
def lowSum (a b : Value) (t : Nat) : Nat := Value.val a % 256 ^ t + Value.val b % 256 ^ t

theorem lowSum_zero (a b : Value) : lowSum a b 0 = 0 := by
  simp [lowSum, Nat.mod_one]

theorem lowSum_succ (a b : Value) (t : Nat) :
    lowSum a b (t + 1) = 256 ^ t * (lo a t + lo b t) + lowSum a b t := by
  simp only [lowSum, lo_eq_val_div_mod, Nat.pow_succ, Nat.mod_mul]
  ring

/-- From the longer length on, the low digits are all there are. -/
theorem lowSum_max_length (a b : Value) :
    lowSum a b (max a.length b.length) = Value.val a + Value.val b := by
  rw [lowSum, Nat.mod_eq_of_lt (Value.val_lt_of_length_le (le_max_left _ _)),
    Nat.mod_eq_of_lt (Value.val_lt_of_length_le (le_max_right _ _))]

/-- What stands above the low `t` digits of the next sum is the next digit sum with the carry so far. -/
theorem lowSum_succ_div (a b : Value) (t : Nat) :
    lowSum a b (t + 1) / 256 ^ t = lo a t + lo b t + lowSum a b t / 256 ^ t := by
  rw [lowSum_succ, Nat.mul_add_div (by positivity)]

/-- The next digit sum leaves the digits made so far. -/
theorem rep_lowSum_succ (a b : Value) (t : Nat) : rep t (lowSum a b (t + 1)) = rep t (lowSum a b t) := by
  rw [← rep_mod t t _ le_rfl, lowSum_succ, Nat.mul_add_mod, rep_mod t t _ le_rfl]

end Sys2Proof

namespace Sys2Proof.Machine

/-- The loop invariant of the carry chain: after `t` steps the carry and the digits are those of the sum of the
low `t` digits (43_add.md R110). -/
theorem addChain_lowSum (a b : Value) (m t : Nat) :
    addChain a b m t (lowSum a b t / 256 ^ t) (rep t (lowSum a b t)) =
      (lowSum a b (t + m) / 256 ^ (t + m), rep (t + m) (lowSum a b (t + m))) := by
  induction m generalizing t with
  | zero => rfl
  | succ m ih =>
    have hdigits : BitVec.ofNat 8 (lowSum a b (t + 1) / 256 ^ t) :: rep t (lowSum a b t) =
        rep (t + 1) (lowSum a b (t + 1)) := by
      rw [rep, rep_lowSum_succ]
    rw [addChain, ← lowSum_succ_div, Nat.div_div_eq_div_mul, ← Nat.pow_succ, hdigits, ih,
      Nat.add_right_comm, Nat.add_assoc]

/-- The whole chain leaves the low `n` digits of the sum and what stands above them as the last carry. -/
theorem addChain_eq (a b : Value) :
    addChain a b (max a.length b.length) 0 0 [] =
      ((Value.val a + Value.val b) / 256 ^ max a.length b.length,
        rep (max a.length b.length) (Value.val a + Value.val b)) := by
  have h := addChain_lowSum a b (max a.length b.length) 0
  rwa [lowSum_zero, Nat.zero_div, Nat.zero_add, lowSum_max_length] at h

/-- A carry out of the top is at most 1, as each operand stays below `256^n`. -/
theorem last_carry_eq_one_iff (a b : Value) :
    (Value.val a + Value.val b) / 256 ^ max a.length b.length = 1 ↔
      256 ^ max a.length b.length ≤ Value.val a + Value.val b := by
  have ha := Value.val_lt_of_length_le (le_max_left a.length b.length)
  have hb := Value.val_lt_of_length_le (le_max_right a.length b.length)
  rw [Nat.div_eq_iff (by positivity)]
  omega

/-- The adder's closed form (43_add.md R111). -/
theorem addValues_eq_rep (a b : Value) :
    addValues a b =
      if 256 ^ max a.length b.length ≤ Value.val a + Value.val b then
        rep (max a.length b.length + 1) (Value.val a + Value.val b)
      else rep (max a.length b.length) (Value.val a + Value.val b) := by
  simp only [addValues, addChain_eq, last_carry_eq_one_iff, rep]

/-- The adder makes the same digit list from its operands in either order (43_add.md R112). -/
theorem addValues_comm (a b : Value) : addValues a b = addValues b a := by
  rw [addValues_eq_rep, addValues_eq_rep, max_comm, Nat.add_comm]

end Sys2Proof.Machine
end

section
/-! SUPPORT. Operations on two sources: what they store, and when the sources may be exchanged
(60_exceptions.md R168, R171). -/

namespace Sys2Proof.Machine

variable {s : State}

/-- An operation on in-range indices and two sources that hold Values computes and stores
(60_exceptions.md R171). -/
theorem operate2_of_slots {rd rs1 rs2 : Nat} {a b : Value} (hd : rd < s.count) (hi : rs1 < s.count)
    (hj : rs2 < s.count) (ha : s.slot rs1 = some a) (hb : s.slot rs2 = some b) (f : Value → Value → Value) :
    s.operate2 rd rs1 rs2 f = s.storeResult rd (f a b) := by
  have hcheck {i : Nat} (hlt : i < s.count) : s.checkIndex i = .ok i :=
    checkIndex_of_lt (by omega) (by omega)
  simp only [State.operate2, hcheck hd, hcheck hi, hcheck hj, bind, Except.bind, readSlot_of_slot ha,
    readSlot_of_slot hb]

/-- Storing a result that fits (10_state.md R23). -/
theorem attempt_storeResult_of_le {rd : Nat} {r : Value} (hcap : r.length ≤ s.cfg.lMax) :
    attempt s (s.storeResult rd r) = .next (s.writeSlot rd r) := by
  rw [storeResult_eq, if_neg (by omega), attempt_ok]

/-- Storing a result that does not fit (10_state.md R23, 60_exceptions.md R165). -/
theorem attempt_storeResult_of_lt {rd : Nat} {r : Value} (hcap : s.cfg.lMax < r.length) :
    attempt s (s.storeResult rd r) = .next (s.raise .capacityExceeded) := by
  rw [storeResult_eq, if_pos hcap, attempt_error]

theorem checkIndex_error {i : Int} {k : ErrorKind} (h : s.checkIndex i = .error k) : k = .indexOutOfRange := by
  unfold State.checkIndex at h
  split at h <;> cases h
  rfl

theorem readSlot_error {i : Nat} {k : ErrorKind} (h : s.readSlot i = .error k) :
    k = .uninitializedRegister := by
  unfold State.readSlot at h
  split at h <;> cases h
  rfl

/-- Two checks that can fail with one error only may be made in either order. -/
theorem bind_comm_of_error {ε α β γ : Type} {x : Except ε α} {y : Except ε β} {e : ε}
    (hx : ∀ k, x = .error k → k = e) (hy : ∀ k, y = .error k → k = e) (g : α → β → Except ε γ) :
    (x >>= fun a => y >>= fun b => g a b) = (y >>= fun b => x >>= fun a => g a b) := by
  cases x with
  | ok a => cases y <;> rfl
  | error k =>
    cases y with
    | ok b => rfl
    | error l => cases hx k rfl; cases hy l rfl; rfl

/-- A commutative operation gives the same outcome with its sources exchanged, errors included: both index
checks raise IndexOutOfRange, both reads UninitializedRegister (60_exceptions.md R168). -/
theorem operate2_comm {f : Value → Value → Value} (hf : ∀ a b, f a b = f b a) (rd rs1 rs2 : Int) :
    s.operate2 rd rs1 rs2 f = s.operate2 rd rs2 rs1 f := by
  unfold State.operate2
  congr 1
  funext d
  rw [bind_comm_of_error (fun _ => checkIndex_error) (fun _ => checkIndex_error)]
  congr 1
  funext j
  congr 1
  funext i
  rw [bind_comm_of_error (fun _ => readSlot_error) (fun _ => readSlot_error)]
  simp only [hf]

end Sys2Proof.Machine
end

section
/-! PROOF. ADD stores the exact sum, and its operands commute (43_add.md R111, R112). -/

namespace Sys2Proof.Machine

variable {s : State}

/-- ADD in EXECUTING on in-range indices and sources that hold Values (43_add.md R110). -/
theorem exec_add_executing {rd rs1 rs2 : Nat} {a b : Value} (hq : s.seq = .executing) (hd : rd < s.count)
    (hi : rs1 < s.count) (hj : rs2 < s.count) (ha : s.slot rs1 = some a) (hb : s.slot rs2 = some b) :
    exec (.add rd rs1 rs2) s = attempt s (s.storeResult rd (addValues a b)) := by
  rw [exec, execAdd, asOperation_executing hq, operate2_of_slots hd hi hj ha hb]

/-- Settles O21: the adder's closed form, then the capacity check. -/
theorem addIsExact : Obligations.AddIsExact := by
  intro rd rs1 rs2 a b s hq hd hi hj ha hb n r
  have hr : addValues a b = r := addValues_eq_rep a b
  rw [exec_add_executing hq hd hi hj ha hb, hr]
  exact ⟨attempt_storeResult_of_le, attempt_storeResult_of_lt⟩

/-- Settles O22: the adder is symmetric, and so are the checks before it. -/
theorem addCommutes : Obligations.AddCommutes := by
  intro rd rs1 rs2 s
  rw [exec, exec, execAdd, execAdd, operate2_comm addValues_comm]

end Sys2Proof.Machine
end

section
/-! SUPPORT. The scalar multiplier: each of its steps keeps the number of the digits made so far together with
the carry above them (44_multiply.md R120, R121). -/

namespace Sys2Proof

/-- A digit put in front of a Value, and what is carried above it, hold the whole of `x` at the digit's weight. -/
theorem carry_add_val_cons (x : Nat) (w : Value) :
    x / 256 * 256 ^ (w.length + 1) + Value.val (BitVec.ofNat 8 x :: w) = x * 256 ^ w.length + Value.val w := by
  have hx : 256 * (x / 256) + x % 256 = x := Nat.div_add_mod x 256
  rw [Value.val_cons, BitVec.toNat_ofNat]
  calc x / 256 * 256 ^ (w.length + 1) + (x % 256 * 256 ^ w.length + Value.val w)
      = (256 * (x / 256) + x % 256) * 256 ^ w.length + Value.val w := by ring
    _ = x * 256 ^ w.length + Value.val w := by rw [hx]

/-- The `m + 1` digits of a Value from weight `256^t` up are its digit of that weight and the `m` above it. -/
theorem val_div_mod_succ (a : Value) (t m : Nat) :
    Value.val a / 256 ^ t % 256 ^ (m + 1) = lo a t + 256 * (Value.val a / 256 ^ (t + 1) % 256 ^ m) := by
  rw [Nat.pow_succ', Nat.mod_mul, Nat.div_div_eq_div_mul, ← Nat.pow_succ, lo_eq_val_div_mod]

end Sys2Proof

namespace Sys2Proof.Machine

theorem scalarChain_length (a : Value) (k m t c : Nat) (w : Value) :
    (scalarChain a k m t c w).2.length = w.length + m := by
  induction m generalizing t c w with
  | zero => rfl
  | succ m ih => simp only [scalarChain, ih, List.length_cons]; omega

/-- The loop invariant of the scalar chain: `m` steps from digit `t` on add `k` times these digits to what the
carry and the digits made before denote (44_multiply.md R120, first loop). -/
theorem scalarChain_val (a : Value) (k m t c : Nat) (w : Value) :
    (scalarChain a k m t c w).1 * 256 ^ (w.length + m) + Value.val (scalarChain a k m t c w).2 =
      (c + Value.val a / 256 ^ t % 256 ^ m * k) * 256 ^ w.length + Value.val w := by
  induction m generalizing t c w with
  | zero => simp [scalarChain, Nat.mod_one]
  | succ m ih =>
    have hstep := carry_add_val_cons (lo a t * k + c) w
    rw [scalarChain, show w.length + (m + 1) = (BitVec.ofNat 8 (lo a t * k + c) :: w).length + m by
      rw [List.length_cons]; omega, ih, List.length_cons, Nat.add_mul, Nat.add_right_comm, hstep,
      val_div_mod_succ]
    ring

/-- The whole chain: the carry and the `n` digits hold the product. -/
theorem scalarChain_eq (a : Value) (k : Nat) :
    (scalarChain a k a.length 0 0 []).1 * 256 ^ a.length + Value.val (scalarChain a k a.length 0 0 []).2 =
      Value.val a * k := by
  have h := scalarChain_val a k a.length 0 0 []
  simpa [Nat.mod_eq_of_lt (Value.val_lt a)] using h

/-- The carry bytes put the carry modulo `256^m` in front of the digits (44_multiply.md R120, second loop). -/
theorem carryBytes_val (m c : Nat) (w : Value) :
    Value.val (carryBytes m c w) = c % 256 ^ m * 256 ^ w.length + Value.val w := by
  induction m generalizing c w with
  | zero => simp [carryBytes, Nat.mod_one]
  | succ m ih =>
    rw [carryBytes, ih, Value.val_cons, BitVec.toNat_ofNat, List.length_cons, Nat.pow_succ' (n := m), Nat.mod_mul]
    ring

/-- A 64-bit scalar makes the product at most 8 digits longer (44_multiply.md R120). -/
theorem val_mul_lt (a : Value) {k : Nat} (hk : k < 2 ^ 64) : Value.val a * k < 256 ^ (a.length + 8) := by
  rw [Nat.pow_add]
  exact Nat.mul_lt_mul'' (Value.val_lt a) hk

/-- The untrimmed product: all 8 carry bytes are needed at most, so nothing is lost. -/
theorem carryBytes_scalarChain (a : Value) {k : Nat} (hk : k < 2 ^ 64) :
    carryBytes 8 (scalarChain a k a.length 0 0 []).1 (scalarChain a k a.length 0 0 []).2 =
      rep (a.length + 8) (Value.val a * k) := by
  have hprod := scalarChain_eq a k
  have hlen : (scalarChain a k a.length 0 0 []).2.length = a.length := by
    rw [scalarChain_length, List.length_nil, Nat.zero_add]
  generalize scalarChain a k a.length 0 0 [] = r at hprod hlen
  have hcarry : r.1 < 256 ^ 8 := by
    have hlt : r.1 * 256 ^ a.length < 256 ^ 8 * 256 ^ a.length := by
      rw [← Nat.pow_add, Nat.add_comm 8]
      exact (Nat.le_of_add_right_le hprod.le).trans_lt (val_mul_lt a hk)
    exact Nat.lt_of_mul_lt_mul_right hlt
  rw [← rep_val (carryBytes 8 r.1 r.2), carryBytes_length, carryBytes_val, hlen, Nat.mod_eq_of_lt hcarry, hprod]

/-- The scalar multiplier's closed form (44_multiply.md R121). -/
theorem scalarProduct_eq (smulCanon : Bool) (a : Value) {k : Nat} (hk : k < 2 ^ 64) :
    scalarProduct smulCanon a k =
      if smulCanon then minrep (Value.val a * k) else rep (a.length + 8) (Value.val a * k) := by
  have hval : Value.val (rep (a.length + 8) (Value.val a * k)) = Value.val a * k := by
    rw [Value.val_rep, Nat.mod_eq_of_lt (val_mul_lt a hk)]
  have hne : rep (a.length + 8) (Value.val a * k) ≠ [] := List.cons_ne_nil _ _
  simp only [scalarProduct, carryBytes_scalarChain a hk, canon_eq_minrep hne, hval]

/-- The scalar product denotes `val(a) · k`, trimmed or not (44_multiply.md R121). -/
theorem val_scalarProduct (smulCanon : Bool) (a : Value) {k : Nat} (hk : k < 2 ^ 64) :
    Value.val (scalarProduct smulCanon a k) = Value.val a * k := by
  rw [scalarProduct_eq smulCanon a hk]
  cases smulCanon with
  | true => exact val_minrep _
  | false => exact (Value.val_rep _ _).trans (Nat.mod_eq_of_lt (val_mul_lt a hk))

end Sys2Proof.Machine
end

section
/-! SUPPORT. Operations under other parameters: which of the parameters they read (10_state.md R23). -/

namespace Sys2Proof.Machine

variable {s t : State}

/-- The same state under other parameters. -/
def State.withCfg (s : State) (c : Params) : State := { s with cfg := c }

/-- Of the parameters, an operation on one source depends on L_MAX only (10_state.md R23). -/
theorem operate1_withCfg {c : Params} (hcap : c.lMax = s.cfg.lMax) (rd rs1 : Int) (f : Value → Value) :
    (s.withCfg c).operate1 rd rs1 f = (s.operate1 rd rs1 f).map (·.withCfg c) := by
  have hcheck (i : Int) : (s.withCfg c).checkIndex i = s.checkIndex i := rfl
  have hread (i : Nat) : (s.withCfg c).readSlot i = s.readSlot i := rfl
  have hstore (d : Nat) (r : Value) : (s.withCfg c).storeResult d r = (s.storeResult d r).map (·.withCfg c) := by
    rw [storeResult_eq, storeResult_eq, State.withCfg, hcap]
    split <;> rfl
  unfold State.operate1
  rw [hcheck, hcheck]
  cases s.checkIndex rd with
  | error e => rfl
  | ok d =>
    cases s.checkIndex rs1 with
    | error e => rfl
    | ok i =>
      simp only [bind, Except.bind, hread, hstore]
      cases s.readSlot i <;> rfl

/-- The state and class check and the errors keep the parameters and read none of them (46_control.md R147). -/
theorem asOperation_withCfg {body : Except ErrorKind State} {c : Params} (h : asOperation s body = .next t) :
    asOperation (s.withCfg c) (body.map (·.withCfg c)) = .next (t.withCfg c) := by
  have hseq : (s.withCfg c).seq = s.seq := rfl
  unfold asOperation at h ⊢
  rw [hseq]
  cases hs : s.seq with
  | executing =>
    rw [hs] at h
    cases body <;> cases h <;> rfl
  | awaitingCount | initializing | terminated =>
    rw [hs] at h
    cases h
    rfl

end Sys2Proof.Machine
end

section
/-! PROOF. MUL_UINT64 stores the exact product, and SMUL_SOURCE does not matter to it in place
(44_multiply.md R121, R123). -/

namespace Sys2Proof.Machine

variable {s t : State}

/-- MUL_UINT64 in EXECUTING on in-range indices and a multiplicand slot that holds a Value
(44_multiply.md R120). -/
theorem exec_mulUint64_executing {rd rs1 : Nat} {a : Value} (hq : s.seq = .executing) (hd : rd < s.count)
    (hi : rs1 < s.count) (ha : s.slot (multiplicandSlot s.cfg.smulSource rd rs1) = some a) (k : Word) :
    exec (.mulUint64 rd rs1 k) s = attempt s (s.storeResult rd (scalarProduct s.cfg.smulCanon a k.toNat)) := by
  have hrd : s.checkIndex rd = .ok rd := checkIndex_of_lt (by omega) (by omega)
  have hrs1 : s.checkIndex rs1 = .ok rs1 := checkIndex_of_lt (by omega) (by omega)
  have hbody : mulUint64Body rd rs1 k s = s.storeResult rd (scalarProduct s.cfg.smulCanon a k.toNat) := by
    simp only [mulUint64Body, hrd, hrs1, bind, Except.bind, readSlot_of_slot ha]
  rw [exec, execMulUint64, asOperation_executing hq, hbody]

/-- Settles O23: the scalar multiplier's closed form, then the capacity check. -/
theorem scalarProductIsExact : Obligations.ScalarProductIsExact := by
  intro rd rs1 k a s hq hd hi ha r
  have hr : scalarProduct s.cfg.smulCanon a k.toNat = r := scalarProduct_eq _ a k.isLt
  rw [exec_mulUint64_executing hq hd hi ha, hr]
  exact ⟨hr ▸ val_scalarProduct _ a k.isLt, attempt_storeResult_of_le, attempt_storeResult_of_lt⟩

/-- With `rd = rs1` both SMUL_SOURCE modes read the slot `rd`, so that MUL_UINT64 is an operation on one source
(44_multiply.md R123). -/
theorem mulUint64Body_same (rd : Int) (k : Word) (s : State) :
    mulUint64Body rd rd k s = s.operate1 rd rd fun a => scalarProduct s.cfg.smulCanon a k.toNat := by
  have hslot (d : Nat) : multiplicandSlot s.cfg.smulSource d d = d := by cases s.cfg.smulSource <;> rfl
  unfold mulUint64Body State.operate1
  cases s.checkIndex rd with
  | error e => rfl
  | ok d => simp only [bind, Except.bind, hslot]

/-- In place MUL_UINT64 reads L_MAX and SMUL_CANON of the parameters, and so not SMUL_SOURCE
(44_multiply.md R123). -/
theorem exec_mulUint64_same_withCfg {rd : Int} {k : Word} {c : Params} (h : exec (.mulUint64 rd rd k) s = .next t)
    (hcap : c.lMax = s.cfg.lMax) (hcanon : c.smulCanon = s.cfg.smulCanon) :
    exec (.mulUint64 rd rd k) (s.withCfg c) = .next (t.withCfg c) := by
  have hcanon' : (s.withCfg c).cfg.smulCanon = s.cfg.smulCanon := hcanon
  rw [exec, execMulUint64, mulUint64Body_same] at h ⊢
  rw [hcanon', operate1_withCfg hcap]
  exact asOperation_withCfg h

/-- Settles O24: the two states differ in SMUL_SOURCE only. -/
theorem smulSourceDoesNotMatterInPlace : Obligations.SmulSourceDoesNotMatterInPlace := by
  intro rd k s t u ht hu
  have hdst := exec_mulUint64_same_withCfg (c := { s.cfg with smulSource := .dst }) ht rfl rfl
  exact Host.Outcome.next.inj (hu.symm.trans hdst)

end Sys2Proof.Machine
end

section
/-! SUPPORT. The schoolbook multiplier: each cross product is added at its weight, and each pass adds one digit of
op1 times op2 (44_multiply.md R125, R126). -/

namespace Sys2Proof

/-- Replacing the digit of weight `256^e` replaces its contribution to the number. -/
theorem val_set_add {p : Value} {i e : Nat} (hlen : p.length = i + 1 + e) (d : Digit) :
    Value.val (p.set i d) + (p.getD i 0#8).toNat * 256 ^ e = Value.val p + d.toNat * 256 ^ e := by
  induction p generalizing i with
  | nil => exact absurd hlen (by rw [List.length_nil]; omega)
  | cons x xs ih =>
    rw [List.length_cons] at hlen
    cases i with
    | zero =>
      have he : xs.length = e := by omega
      simp only [List.set_cons_zero, List.getD_cons_zero, Value.val_cons, he]
      omega
    | succ i =>
      have hxs := ih (i := i) (by omega)
      simp only [List.set_cons_succ, List.getD_cons_succ, Value.val_cons, List.length_set]
      omega

/-- A digit contributes at most the whole number. -/
theorem getD_mul_pow_le_val {p : Value} {i e : Nat} (hlen : p.length = i + 1 + e) :
    (p.getD i 0#8).toNat * 256 ^ e ≤ Value.val p := by
  have h := val_set_add hlen 0#8
  simp only [BitVec.toNat_zero, Nat.zero_mul, Nat.add_zero] at h
  omega

theorem val_append (v w : Value) : Value.val (v ++ w) = Value.val v * 256 ^ w.length + Value.val w := by
  induction v with
  | nil => simp
  | cons d ds ih =>
    rw [List.cons_append, Value.val_cons, Value.val_cons, ih, List.length_append, Nat.pow_add]
    ring

theorem val_take_succ {b : Value} {j : Nat} (hj : j < b.length) :
    Value.val (b.take (j + 1)) = Value.val (b.take j) * 256 + (b.getD j 0#8).toNat := by
  rw [List.take_succ_eq_append_getElem hj, val_append, List.getD_eq_getElem _ _ hj]
  simp [Value.val_cons]

theorem val_drop {a : Value} {i e : Nat} (hlen : a.length = i + 1 + e) :
    Value.val (a.drop i) = (a.getD i 0#8).toNat * 256 ^ e + Value.val (a.drop (i + 1)) := by
  have hi : i < a.length := by omega
  rw [List.drop_eq_getElem_cons hi, Value.val_cons, List.length_drop, List.getD_eq_getElem _ _ hi,
    show a.length - (i + 1) = e by omega]

theorem val_zeros (m : Nat) : Value.val (zeros m) = 0 := by
  rw [← rep_zero, Value.val_rep, Nat.zero_mod]

end Sys2Proof

namespace Sys2Proof.Machine

/-- The loop invariant of the inner pass: the first `j` digits of `b` times `ai`, and the carry, are added to the
buffer at the weight where the pass stands; the leftover carry has the weight of position `i`
(44_multiply.md R125). -/
theorem crossPass_val (ai : Nat) (b : Value) (i : Nat) {j e : Nat} (c : Nat) {p : Value} (hj : j ≤ b.length)
    (hlen : p.length = i + j + 1 + e) :
    (crossPass ai b i j c p).1 * 256 ^ (j + e) + Value.val (crossPass ai b i j c p).2 =
      (ai * Value.val (b.take j) + c) * 256 ^ e + Value.val p := by
  induction j generalizing e c p with
  | zero => simp [crossPass]
  | succ j ih =>
    simp only [crossPass]
    generalize ht : ai * (b.getD j 0#8).toNat + (p.getD (i + j + 1) 0#8).toNat + c = t
    have hset := val_set_add (i := i + j + 1) (e := e) (by omega) (BitVec.ofNat 8 t)
    have hdigit : (256 * (t / 256) + (BitVec.ofNat 8 t).toNat) * 256 ^ e = t * 256 ^ e :=
      congrArg (· * 256 ^ e) (Nat.div_add_mod t 256)
    have hpass := ih (e := e + 1) (t / 256) (p := p.set (i + j + 1) (BitVec.ofNat 8 t)) (by omega)
      (by rw [List.length_set]; omega)
    rw [show j + 1 + e = j + (e + 1) by omega, hpass, val_take_succ (by omega), Nat.pow_succ]
    rw [← ht] at hdigit hset ⊢
    linarith

/-- A whole pass with its leftover carry put into position `i` adds `ai` times `b` at the weight `256^e`. Where the
sum stays below the weight of position `i - 1`, position `i` holds digit and carry together (44_multiply.md R125). -/
theorem crossPass_carry_val (ai : Nat) {b p : Value} {i e : Nat} (hlen : p.length = i + 1 + (b.length + e))
    (hlt : ai * Value.val b * 256 ^ e + Value.val p < 256 * 256 ^ (b.length + e)) :
    Value.val ((crossPass ai b i b.length 0 p).2.set i (BitVec.ofNat 8
      (((crossPass ai b i b.length 0 p).2.getD i 0#8).toNat + (crossPass ai b i b.length 0 p).1))) =
      ai * Value.val b * 256 ^ e + Value.val p := by
  have hpass := crossPass_val ai b i (e := e) 0 (p := p) le_rfl (by omega)
  rw [List.take_length, Nat.add_zero] at hpass
  have hqlen := (crossPass_length ai b i b.length 0 p).trans hlen
  generalize crossPass ai b i b.length 0 p = r at hpass hqlen ⊢
  have hdigit := getD_mul_pow_le_val hqlen
  have hfit : (r.2.getD i 0#8).toNat + r.1 < 256 := by
    refine Nat.lt_of_mul_lt_mul_right (a := 256 ^ (b.length + e)) ?_
    rw [Nat.add_mul]
    omega
  have hset := val_set_add hqlen (BitVec.ofNat 8 ((r.2.getD i 0#8).toNat + r.1))
  rw [BitVec.toNat_ofNat, Nat.mod_eq_of_lt hfit, Nat.add_mul] at hset
  omega

/-- The invariant of the passes: with `i` digits of op1 to go, the buffer holds the product of the others with op2
(44_multiply.md R125). -/
theorem crossPasses_val {a b : Value} {i : Nat} {p : Value} (hi : i ≤ a.length)
    (hlen : p.length = a.length + b.length) (hp : Value.val p = Value.val (a.drop i) * Value.val b) :
    Value.val (crossPasses a b i p) = Value.val a * Value.val b := by
  induction i generalizing p with
  | zero => exact hp
  | succ i ih =>
    obtain ⟨e, he⟩ : ∃ e, a.length = i + 1 + e := ⟨a.length - (i + 1), by omega⟩
    have hsum : (a.getD i 0#8).toNat * Value.val b * 256 ^ e + Value.val p =
        Value.val (a.drop i) * Value.val b := by
      rw [hp, val_drop he]
      ring
    have hlt : Value.val (a.drop i) * Value.val b < 256 * 256 ^ (b.length + e) := by
      have hdrop : Value.val (a.drop i) < 256 ^ (e + 1) :=
        Value.val_lt_of_length_le (by rw [List.length_drop]; omega)
      calc Value.val (a.drop i) * Value.val b < 256 ^ (e + 1) * 256 ^ b.length :=
            Nat.mul_lt_mul'' hdrop (Value.val_lt b)
        _ = 256 * 256 ^ (b.length + e) := by ring
    refine ih (by omega) ?_ ?_
    · rw [List.length_set, crossPass_length, hlen]
    · rw [crossPass_carry_val (e := e) _ (by omega) (by rwa [hsum]), hsum]

/-- The schoolbook multiplier's closed form (44_multiply.md R126). -/
theorem mulValues_eq_minrep {a : Value} (ha : a ≠ []) (b : Value) :
    mulValues a b = minrep (Value.val a * Value.val b) := by
  have hpos := List.length_pos_of_ne_nil ha
  have hne : crossPasses a b a.length (zeros (a.length + b.length)) ≠ [] :=
    List.ne_nil_of_length_pos (by rw [crossPasses_length, zeros_length]; omega)
  rw [mulValues, canon_eq_minrep hne, crossPasses_val le_rfl (zeros_length _)]
  simp [val_zeros]

end Sys2Proof.Machine
end

section
/-! PROOF. MUL stores the exact product (44_multiply.md R126). -/

namespace Sys2Proof.Machine

variable {s : State}

/-- MUL in EXECUTING on in-range indices and sources that hold Values (44_multiply.md R125). -/
theorem exec_mul_executing {rd rs1 rs2 : Nat} {a b : Value} (hq : s.seq = .executing) (hd : rd < s.count)
    (hi : rs1 < s.count) (hj : rs2 < s.count) (ha : s.slot rs1 = some a) (hb : s.slot rs2 = some b) :
    exec (.mul rd rs1 rs2) s = attempt s (s.storeResult rd (mulValues a b)) := by
  rw [exec, execMul, asOperation_executing hq, operate2_of_slots hd hi hj ha hb]

/-- Settles O25: the schoolbook multiplier's closed form, then the capacity check. -/
theorem schoolbookProductIsExact : Obligations.SchoolbookProductIsExact := by
  intro rd rs1 rs2 a b s hq hd hi hj ha hb hne _ r
  have hr : mulValues a b = r := mulValues_eq_minrep hne b
  rw [exec_mul_executing hq hd hi hj ha hb, hr]
  exact ⟨attempt_storeResult_of_le, attempt_storeResult_of_lt⟩

end Sys2Proof.Machine
end

section
/-! SUPPORT. The binary exponentiation: its loop multiplies the accumulator by the running square's power, and no
accumulator or squared running square on the way is longer than the result (45_power.md R136, R138). -/

namespace Sys2Proof

/-- A smaller number has no longer shortest Value (00_scope.md R8). -/
theorem minrep_length_mono {x y : Nat} (h : x ≤ y) : (minrep x).length ≤ (minrep y).length := by
  rw [minrep_length, minrep_length]
  exact Nat.succ_le_succ (Nat.log_mono_right h)

end Sys2Proof

namespace Sys2Proof.Machine

variable {m e : Nat} {acc sq : Value}

@[simp] theorem val_mulv (p q : Value) : Value.val (mulv p q) = Value.val p * Value.val q := val_minrep _

/-- The accumulator after an iteration: the lowest bit of the exponent decides (45_power.md R136). -/
def nextAcc (acc sq : Value) (e : Nat) : Value := if e % 2 = 1 then mulv acc sq else acc

theorem val_nextAcc (acc sq : Value) (e : Nat) :
    Value.val (nextAcc acc sq e) = Value.val acc * Value.val sq ^ (e % 2) := by
  unfold nextAcc
  obtain h | h := Nat.mod_two_eq_zero_or_one e <;> simp [h]

/-- Halving the exponent and squaring the base give the same power, up to the lowest bit (45_power.md R136). -/
theorem val_nextAcc_mul_pow (acc sq : Value) (e : Nat) :
    Value.val (nextAcc acc sq e) * Value.val (mulv sq sq) ^ (e / 2) = Value.val acc * Value.val sq ^ e := by
  rw [val_nextAcc, val_mulv, ← Nat.pow_two, ← Nat.pow_mul, Nat.mul_assoc, ← Nat.pow_add, Nat.mod_add_div]

/-! One iteration of the loop: the last one, on the top bit, and the others. -/

theorem binpowLoop_one (m : Nat) (acc sq : Value) : binpowLoop (m + 1) acc sq 1 = mulv acc sq := by
  cases m <;> rfl

theorem binpowLoop_of_two_le (he : 2 ≤ e) (m : Nat) (acc sq : Value) :
    binpowLoop (m + 1) acc sq e = binpowLoop m (nextAcc acc sq e) (mulv sq sq) (e / 2) := by
  rw [binpowLoop, if_neg (by omega)]
  simp only [if_pos (show 0 < e / 2 by omega), nextAcc]

theorem binpowTrace_one (m : Nat) (acc sq : Value) : binpowTrace (m + 1) acc sq 1 = [mulv acc sq] := rfl

theorem binpowTrace_of_two_le (he : 2 ≤ e) (m : Nat) (acc sq : Value) :
    binpowTrace (m + 1) acc sq e =
      nextAcc acc sq e :: mulv sq sq :: binpowTrace m (nextAcc acc sq e) (mulv sq sq) (e / 2) := by
  rw [binpowTrace, if_neg (by omega)]
  simp only [if_pos (show 0 < e / 2 by omega), nextAcc]

/-- An iteration is the last one or leaves a positive exponent of one bit less. -/
theorem exponent_cases (hpos : 0 < e) (hlt : e < 2 ^ (m + 1)) : e = 1 ∨ 2 ≤ e ∧ 0 < e / 2 ∧ e / 2 < 2 ^ m := by
  rw [Nat.pow_succ] at hlt
  omega

/-- The loop's closed form, for a bound that covers the bits of the exponent (45_power.md R136, R138). -/
theorem binpowLoop_eq_minrep (hpos : 0 < e) (hlt : e < 2 ^ m) :
    binpowLoop m acc sq e = minrep (Value.val acc * Value.val sq ^ e) := by
  induction m generalizing acc sq e with
  | zero => omega
  | succ m ih =>
    obtain rfl | ⟨he, hpos', hlt'⟩ := exponent_cases hpos hlt
    · rw [binpowLoop_one, Nat.pow_one, mulv]
    · rw [binpowLoop_of_two_le he, ih hpos' hlt', val_nextAcc_mul_pow]

/-- The loop's result is the last of the accumulators (45_power.md R136). -/
theorem binpowLoop_mem_binpowTrace (hpos : 0 < e) (hlt : e < 2 ^ m) :
    binpowLoop m acc sq e ∈ binpowTrace m acc sq e := by
  induction m generalizing acc sq e with
  | zero => omega
  | succ m ih =>
    obtain rfl | ⟨he, hpos', hlt'⟩ := exponent_cases hpos hlt
    · rw [binpowLoop_one, binpowTrace_one]
      exact List.mem_singleton_self _
    · rw [binpowLoop_of_two_le he, binpowTrace_of_two_le he]
      exact List.mem_cons_of_mem _ (List.mem_cons_of_mem _ (ih hpos' hlt'))

/-- A new accumulator is the old one, or not longer than the result (45_power.md R138). -/
theorem nextAcc_eq_or_length_le (acc sq : Value) (hpos : 0 < e) :
    nextAcc acc sq e = acc ∨
      (nextAcc acc sq e).length ≤ (minrep (Value.val acc * Value.val sq ^ e)).length := by
  unfold nextAcc
  split
  · exact .inr (minrep_length_mono (Nat.mul_le_mul_left _ (Nat.le_self_pow hpos.ne' _)))
  · exact .inl rfl

/-- A squared running square is not longer than the result: an exponent of two or more holds the square as a
factor (45_power.md R138). -/
theorem mulv_self_length_le (he : 2 ≤ e) (hacc : 0 < Value.val sq → 0 < Value.val acc) :
    (mulv sq sq).length ≤ (minrep (Value.val acc * Value.val sq ^ e)).length := by
  refine minrep_length_mono ?_
  obtain hz | hsq := Nat.eq_zero_or_pos (Value.val sq)
  · simp [hz]
  · calc Value.val sq * Value.val sq = Value.val sq ^ 2 := (Nat.pow_two _).symm
      _ ≤ Value.val sq ^ e := Nat.pow_le_pow_right hsq he
      _ ≤ Value.val acc * Value.val sq ^ e := Nat.le_mul_of_pos_left _ (hacc hsq)

/-- What the loop makes on its way is the accumulator it began with, or not longer than its result, unless the
accumulator is zero beside a base that is not (45_power.md R138). -/
theorem binpowTrace_eq_or_length_le (hpos : 0 < e) (hlt : e < 2 ^ m)
    (hacc : 0 < Value.val sq → 0 < Value.val acc) {v : Value} (hv : v ∈ binpowTrace m acc sq e) :
    v = acc ∨ v.length ≤ (minrep (Value.val acc * Value.val sq ^ e)).length := by
  induction m generalizing acc sq e with
  | zero => omega
  | succ m ih =>
    obtain rfl | ⟨he, hpos', hlt'⟩ := exponent_cases hpos hlt
    · rw [binpowTrace_one, List.mem_singleton] at hv
      exact .inr (by rw [hv, Nat.pow_one, mulv])
    · rw [binpowTrace_of_two_le he, List.mem_cons, List.mem_cons] at hv
      have hnext := nextAcc_eq_or_length_le acc sq hpos
      obtain rfl | rfl | hv := hv
      · exact hnext
      · exact .inr (mulv_self_length_le he hacc)
      · have hacc' : 0 < Value.val (mulv sq sq) → 0 < Value.val (nextAcc acc sq e) := by
          rw [val_mulv, val_nextAcc]
          intro hsq
          have hpos := Nat.pos_of_mul_pos_right hsq
          exact Nat.mul_pos (hacc hpos) (Nat.pow_pos hpos)
        have hrest := ih hpos' hlt' hacc' hv
        rw [val_nextAcc_mul_pow] at hrest
        obtain rfl | hlen := hrest
        · exact hnext
        · exact .inr hlen

end Sys2Proof.Machine
end

section
/-! SUPPORT. What POW computes in each POW_MODE, and operations on one source (45_power.md R135 to R137,
60_exceptions.md R171). -/

namespace Sys2Proof.Machine

variable {s : State}

/-- Binary exponentiation is exact (45_power.md R138). -/
theorem binpow_eq_minrep (a : Value) {k : Nat} (hk : 0 < k) : binpow a k = minrep (Value.val a ^ k) := by
  have hone : Value.val [1#8] = 1 := rfl
  rw [binpow, binpowLoop_eq_minrep hk Nat.lt_log2_self, hone, Nat.one_mul]

/-! What POW computes from exponent 2 on (45_power.md R137, R138). -/

theorem power_binary (a : Value) {k : Nat} (hk : 2 ≤ k) : power .binary a k = minrep (Value.val a ^ k) := by
  unfold power
  rw [if_neg (by omega), if_neg (by omega)]
  exact binpow_eq_minrep a (by omega)

theorem power_squareOnly (a : Value) {k : Nat} (hk : 2 ≤ k) :
    power .squareOnly a k = minrep (Value.val a ^ 2) := by
  unfold power
  rw [if_neg (by omega), if_neg (by omega), Nat.pow_two]
  rfl

/-- With exponent 2 both modes compute the square (45_power.md R135, R137). -/
theorem power_two (mode : PowMode) (a : Value) : power mode a 2 = minrep (Value.val a ^ 2) := by
  cases mode with
  | binary => exact power_binary a le_rfl
  | squareOnly => exact power_squareOnly a le_rfl

/-- An operation on in-range indices and a source that holds a Value computes and stores
(60_exceptions.md R171). -/
theorem operate1_of_slot {rd rs1 : Nat} {a : Value} (hd : rd < s.count) (hi : rs1 < s.count)
    (ha : s.slot rs1 = some a) (f : Value → Value) : s.operate1 rd rs1 f = s.storeResult rd (f a) := by
  have hcheck {i : Nat} (hlt : i < s.count) : s.checkIndex i = .ok i :=
    checkIndex_of_lt (by omega) (by omega)
  simp only [State.operate1, hcheck hd, hcheck hi, bind, Except.bind, readSlot_of_slot ha]

/-- An operation whose two sources are one slot is an operation on one source, errors included
(60_exceptions.md R168). The functions need to agree on stored Values only. -/
theorem operate2_same {rd rs1 : Int} {f : Value → Value → Value} {g : Value → Value}
    (hfg : ∀ i a, s.slot i = some a → f a a = g a) : s.operate2 rd rs1 rs1 f = s.operate1 rd rs1 g := by
  unfold State.operate1 State.operate2
  cases s.checkIndex rd with
  | error e => rfl
  | ok d =>
    cases s.checkIndex rs1 with
    | error e => rfl
    | ok i =>
      cases ha : s.readSlot i with
      | error e => simp only [bind, Except.bind, ha]
      | ok a => simp only [bind, Except.bind, ha, hfg i a (readSlot_ok.mp ha)]

end Sys2Proof.Machine
end

section
/-! PROOF. POW stores the exact power, its intermediates fit where the result fits, and with exponent 2 it is MUL
(45_power.md R135 to R138). -/

namespace Sys2Proof.Machine

variable {s : State}

/-- POW in EXECUTING on in-range indices and a source that holds a Value (45_power.md R135). -/
theorem exec_pow_executing {rd rs1 : Nat} {a : Value} (hq : s.seq = .executing) (hd : rd < s.count)
    (hi : rs1 < s.count) (ha : s.slot rs1 = some a) (k : Word) :
    exec (.pow rd rs1 k) s = attempt s (s.storeResult rd (power s.cfg.powMode a k.toNat)) := by
  rw [exec, execPow, asOperation_executing hq, operate1_of_slot hd hi ha]

/-- The closed form of POW's result for an exponent of the command port (45_power.md R138). -/
theorem power_toNat (mode : PowMode) (a : Value) (k : Word) :
    power mode a k.toNat =
      if k = 0#64 then [0x01#8]
      else if k = 1#64 then a
      else match mode with
        | .binary => minrep (Value.val a ^ k.toNat)
        | .squareOnly => minrep (Value.val a ^ 2) := by
  split
  case isTrue h => rw [h]; rfl
  case isFalse h0 =>
    split
    case isTrue h => rw [h]; rfl
    case isFalse h1 =>
      have hk : 2 ≤ k.toNat := by bv_omega
      cases mode with
      | binary => exact power_binary a hk
      | squareOnly => exact power_squareOnly a hk

/-- Settles O26: the closed form of the power, then the capacity check. -/
theorem powerIsExact : Obligations.PowerIsExact := by
  intro rd rs1 k a s hq hd hi ha r
  have hr : power s.cfg.powMode a k.toNat = r := power_toNat _ a k
  rw [exec_pow_executing hq hd hi ha, hr]
  exact ⟨attempt_storeResult_of_le, attempt_storeResult_of_lt⟩

/-- Settles O27: the result is one of the intermediates, and none but the first accumulator, of one digit, is
longer. -/
theorem powerIntermediatesFitWithTheResult : Obligations.PowerIntermediatesFitWithTheResult := by
  intro a k l hk hl
  have hpos : 0 < k := by omega
  constructor
  · rintro ⟨v, hv, hlong⟩
    obtain rfl | hlen := binpowTrace_eq_or_length_le hpos Nat.lt_log2_self (fun _ => by decide) hv
    · exact absurd hlong (Nat.not_lt.mpr hl)
    · rw [binpow, binpowLoop_eq_minrep hpos Nat.lt_log2_self]
      exact hlong.trans_le hlen
  · exact fun hlong => ⟨_, binpowLoop_mem_binpowTrace hpos Nat.lt_log2_self, hlong⟩

/-- Settles O28: the two bodies compute the same square of each stored Value. -/
theorem squareByPowerIsMul : Obligations.SquareByPowerIsMul := by
  intro rd rs1 s hne
  have hsquare (i : Nat) (a : Value) (ha : s.slot i = some a) :
      mulValues a a = power s.cfg.powMode a (2#64).toNat := by
    rw [mulValues_eq_minrep (hne i a ha), ← Nat.pow_two]
    exact (power_two _ a).symm
  rw [exec, exec, execPow, execMul, operate2_same hsquare]

end Sys2Proof.Machine
end

section
/-! SUPPORT. The sequencer's table of refusals: each sequencer state runs the commands of one class and refuses
every other event with its own error (46_control.md R147), and TERMINATED takes none (R153). -/

namespace Sys2Proof.Machine

variable {s : State}

/-- The class of a command, by the check that stands before its body (46_control.md R147). -/
inductive CommandClass where
  | count
  | initializer
  | operation

/-- CNT is the count, UINT64, HEX_STRING and CLONE are the initializers, every other command is an operation. -/
def classOf : Instr → CommandClass
  | .cnt _ => .count
  | .uint64 _ | .hexString _ | .clone _ => .initializer
  | .shl _ _ _ | .add _ _ _ | .mulUint64 _ _ _ | .mul _ _ _ | .pow _ _ _ | .dump | .endSession => .operation

/-- The state and class check of each class. -/
def CommandClass.check : CommandClass → State → Except ErrorKind State → Result
  | .count => asCount
  | .initializer => asInitializer
  | .operation => asOperation

/-- Every command is the check of its class, then its body. -/
theorem exec_eq_check (i : Instr) (s : State) : exec i s = (classOf i).check s (bodyOf i s) := by
  cases i <;> rfl

theorem classOf_eq_count_iff {i : Instr} : classOf i = .count ↔ ∃ n, i = .cnt n := by
  cases i <;> simp [classOf]

theorem classOf_eq_initializer_iff {i : Instr} :
    classOf i = .initializer ↔ (∃ v, i = .uint64 v) ∨ (∃ str, i = .hexString str) ∨ ∃ j, i = .clone j := by
  cases i <;> simp [classOf]

/-! The commands each sequencer state refuses. -/

theorem exec_refused_awaitingCount {i : Instr} (hq : s.seq = .awaitingCount) (hi : classOf i ≠ .count) :
    exec i s = .next (s.raise .malformedCount) := by
  rw [exec_eq_check]
  cases hc : classOf i with
  | count => exact absurd hc hi
  | initializer => simp [CommandClass.check, asInitializer, hq]
  | operation => simp [CommandClass.check, asOperation, hq]

theorem exec_refused_initializing {i : Instr} (hq : s.seq = .initializing) (hi : classOf i ≠ .initializer) :
    exec i s = .next (s.raise .unknownInitializer) := by
  rw [exec_eq_check]
  cases hc : classOf i with
  | count => simp [CommandClass.check, asCount, hq]
  | initializer => exact absurd hc hi
  | operation => simp [CommandClass.check, asOperation, hq]

theorem exec_refused_executing {i : Instr} (hq : s.seq = .executing) (hi : classOf i ≠ .operation) :
    exec i s = .next (s.raise .unknownOperation) := by
  rw [exec_eq_check]
  cases hc : classOf i with
  | count => simp [CommandClass.check, asCount, hq]
  | initializer => simp [CommandClass.check, asInitializer, hq]
  | operation => exact absurd hc hi

/-- After TERMINATED no command has an effect (46_control.md R153). -/
theorem exec_terminated (hq : s.seq = .terminated) (i : Instr) : exec i s = .next s := by
  rw [exec_eq_check]
  cases classOf i with
  | count => simp [CommandClass.check, asCount, hq]
  | initializer => simp [CommandClass.check, asInitializer, hq]
  | operation => simp [CommandClass.check, asOperation, hq]

/-! The events that are no commands. -/

theorem onUnrecognized_awaitingCount (hq : s.seq = .awaitingCount) :
    onUnrecognized s = s.raise .malformedCount := by
  simp [onUnrecognized, hq]

theorem onUnrecognized_initializing (hq : s.seq = .initializing) :
    onUnrecognized s = s.raise .unknownInitializer := by
  simp [onUnrecognized, hq]

theorem onUnrecognized_executing (hq : s.seq = .executing) :
    onUnrecognized s = s.raise .unknownOperation := by
  simp [onUnrecognized, hq]

theorem onUnrecognized_terminated (hq : s.seq = .terminated) : onUnrecognized s = s := by
  simp [onUnrecognized, hq]

theorem onMalformed_awaitingCount (hq : s.seq = .awaitingCount) :
    onMalformed s = s.raise .malformedCount := by
  simp [onMalformed, hq]

/-- Between the count and the end a malformed argument has one error (46_control.md R147). -/
theorem onMalformed_running (hq : s.seq = .initializing ∨ s.seq = .executing) :
    onMalformed s = s.raise .malformedArgument := by
  obtain hq | hq := hq <;> simp [onMalformed, hq]

theorem onMalformed_terminated (hq : s.seq = .terminated) : onMalformed s = s := by
  simp [onMalformed, hq]

theorem onTruncated_awaitingCount (hq : s.seq = .awaitingCount) :
    onTruncated s = s.raise .malformedCount := by
  simp [onTruncated, hq]

/-- Between the count and the end truncated input has one error (46_control.md R147). -/
theorem onTruncated_running (hq : s.seq = .initializing ∨ s.seq = .executing) :
    onTruncated s = s.raise .truncatedInput := by
  obtain hq | hq := hq <;> simp [onTruncated, hq]

theorem onTruncated_terminated (hq : s.seq = .terminated) : onTruncated s = s := by
  simp [onTruncated, hq]

/-! The events of each sequencer state. -/

theorem deliver_awaitingCount {ev : Event} (hq : s.seq = .awaitingCount) (hne : ∀ n, ev ≠ .cmd (.cnt n)) :
    deliver ev s = .next (s.raise .malformedCount) := by
  cases ev with
  | cmd i =>
    refine exec_refused_awaitingCount hq fun hc => ?_
    obtain ⟨n, rfl⟩ := classOf_eq_count_iff.mp hc
    exact hne n rfl
  | unrecognized => rw [deliver, onUnrecognized_awaitingCount hq]
  | malformed => rw [deliver, onMalformed_awaitingCount hq]
  | truncated => rw [deliver, onTruncated_awaitingCount hq]
  | eoi => rw [deliver, onEndOfInput_eq, onTruncated_awaitingCount hq]

/-- Malformed, Truncated and EOI between the count and the end (46_control.md R147). -/
theorem deliver_running (hq : s.seq = .initializing ∨ s.seq = .executing) :
    deliver .malformed s = .next (s.raise .malformedArgument) ∧
      deliver .truncated s = .next (s.raise .truncatedInput) ∧
      deliver .eoi s = .next (s.raise .truncatedInput) := by
  refine ⟨?_, ?_, ?_⟩
  · rw [deliver, onMalformed_running hq]
  · rw [deliver, onTruncated_running hq]
  · rw [deliver, onEndOfInput_eq, onTruncated_running hq]

/-- After TERMINATED no event has an effect (46_control.md R153). -/
theorem deliver_terminated (hq : s.seq = .terminated) (ev : Event) : deliver ev s = .next s := by
  cases ev with
  | cmd i => exact exec_terminated hq i
  | unrecognized => rw [deliver, onUnrecognized_terminated hq]
  | malformed => rw [deliver, onMalformed_terminated hq]
  | truncated => rw [deliver, onTruncated_terminated hq]
  | eoi => rw [deliver, onEndOfInput_eq, onTruncated_terminated hq]

/-- Settles O7: the count's class is CNT alone, and no event outside it passes a check. -/
theorem eventsBeforeTheCountAreMalformedCount : Obligations.EventsBeforeTheCountAreMalformedCount :=
  fun _ _ => deliver_awaitingCount

/-- Settles O8: a command that is none of the three initializers is of another class. -/
theorem eventsRefusedWhileInitializing : Obligations.EventsRefusedWhileInitializing := by
  intro s hq
  refine ⟨fun i huint64 hhex hclone => exec_refused_initializing hq fun hc => ?_, ?_, deliver_running (.inl hq)⟩
  · obtain ⟨v, hv⟩ | ⟨str, hstr⟩ | ⟨j, hj⟩ := classOf_eq_initializer_iff.mp hc
    · exact huint64 v hv
    · exact hhex str hstr
    · exact hclone j hj
  · rw [deliver, onUnrecognized_initializing hq]
    rfl

/-- Settles O9: CNT and the initializers are no operations. -/
theorem eventsRefusedWhileExecuting : Obligations.EventsRefusedWhileExecuting := by
  intro s hq
  have hrefused (i : Instr) (hi : classOf i ≠ .operation) := exec_refused_executing hq hi
  refine ⟨fun n v str j => ⟨?_, ?_, ?_, ?_⟩, ?_, deliver_running (.inr hq)⟩
  · exact hrefused (.cnt n) (by simp [classOf])
  · exact hrefused (.uint64 v) (by simp [classOf])
  · exact hrefused (.hexString str) (by simp [classOf])
  · exact hrefused (.clone j) (by simp [classOf])
  · rw [deliver, onUnrecognized_executing hq]
    rfl

end Sys2Proof.Machine
end

section
/-! SUPPORT. The end of a session: after TERMINATED a step without reset takes a delivery and does nothing else
(46_control.md R153), and the host does not see the slots (20_memory.md R51). -/

namespace Sys2Proof.Machine

variable {s : State}

/-- A reset asserted by the host is taken in every sequencer state (46_control.md R146). -/
theorem step_reset {rest : List Delivery} (hin : s.inbox = .reset :: rest) :
    step s = .next (s.withInbox rest).hostReset := by
  rw [step, hin, fetch_reset]

theorem step_terminated (hq : s.seq = .terminated) (hreset : ∀ rest, s.inbox ≠ .reset :: rest) :
    ∃ ds, step s = .next (s.withInbox ds) := by
  obtain ⟨-, hstep⟩ | ⟨rest, hin, -⟩ | ⟨ev, ds, -, hstep⟩ := step_cases s
  · exact ⟨s.inbox, hstep⟩
  · exact absurd hin (hreset rest)
  · exact ⟨ds, hstep.trans (deliver_terminated (s := s.withInbox ds) hq ev)⟩

/-- The slots do not show in the host's view (20_memory.md R51). -/
theorem hostView_with_regs (r : List (Option Value)) : ({ s with regs := r } : State).hostView = s.hostView :=
  rfl

/-- The deliveries do not show in the host's view (20_memory.md R51). -/
theorem hostView_withInbox (ds : List Delivery) : (s.withInbox ds).hostView = s.hostView := rfl

/-- After TERMINATED two cores that differ in their slots only look the same to the host after every step
(10_state.md R26). -/
theorem step_terminated_hostView {t u : State} {r : List (Option Value)} (hq : s.seq = .terminated)
    (ht : step s = .next t) (hu : step { s with regs := r } = .next u) : u.hostView = t.hostView := by
  by_cases hreset : ∃ rest, s.inbox = .reset :: rest
  · obtain ⟨rest, hin⟩ := hreset
    cases ht.symm.trans (step_reset hin)
    cases hu.symm.trans (step_reset hin)
    rfl
  · have hnone : ∀ rest, s.inbox ≠ .reset :: rest := not_exists.mp hreset
    obtain ⟨ds, hs⟩ := step_terminated hq hnone
    obtain ⟨ds', hs'⟩ := step_terminated (s := { s with regs := r }) hq hnone
    cases ht.symm.trans hs
    cases hu.symm.trans hs'
    rw [hostView_withInbox, hostView_withInbox, hostView_with_regs]

/-- Settles O10: no event passes a check in TERMINATED, and what the step still changes the host does not see. -/
theorem terminatedIsFinal : Obligations.TerminatedIsFinal := by
  refine ⟨fun s ev hq => deliver_terminated hq ev, fun s => step_terminated, fun s rest hin => ?_,
    fun s t u r => step_terminated_hostView⟩
  exact ⟨_, step_reset hin, State.hostReset_seq _⟩

end Sys2Proof.Machine
end

section
/-! SUPPORT. CNT, DUMP and END (46_control.md R148, R151, R152). -/

namespace Sys2Proof.Machine

variable {s t : State}

/-- CNT above N_MAX (46_control.md R148). -/
theorem countBody_of_lt {n : Nat} (h : s.cfg.nMax.val < n) : countBody n s = .error .capacityExceeded :=
  if_pos h

/-- END in EXECUTING (46_control.md R152). -/
theorem exec_endSession_executing (hq : s.seq = .executing) :
    exec .endSession s = .next { s with seq := .terminated, fail := false, err := 0#4 } :=
  asOperation_executing hq _

/-- What CNT can do: nothing, an error, or its body's effect within N_MAX (46_control.md R147, R148). -/
theorem exec_cnt_next {n : Nat} (h : exec (.cnt n) s = .next t) :
    t = s ∨ (∃ k, t = s.raise k) ∨ t = { s with
      nreg := BitVec.ofNat 32 n
      regs := List.replicate n none
      iptr := 0#32
      seq := if n = 0 then .executing else .initializing } := by
  obtain ⟨-, rfl⟩ | ⟨-, herror⟩ | ⟨-, hbody⟩ := asCount_next h
  · exact .inl rfl
  · exact .inr (.inl herror)
  · exact .inr (.inr (countBody_ok hbody).2)

/-- What DUMP can do: nothing, an error, or lines appended to OUT (46_control.md R147, R151). -/
theorem exec_dump_next (h : exec .dump s = .next t) : t = s ∨ (∃ k, t = s.raise k) ∨ ∃ ls, t = s.emit ls := by
  obtain ⟨-, rfl⟩ | ⟨-, herror⟩ | ⟨-, hbody⟩ := asOperation_next h
  · exact .inl rfl
  · exact .inr (.inl herror)
  · obtain ⟨ls, -, rfl⟩ := dumpBody_ok hbody
    exact .inr (.inr ⟨ls, rfl⟩)

/-- What END can do: nothing, an error, or the end with success (46_control.md R147, R152). -/
theorem exec_endSession_next (h : exec .endSession s = .next t) :
    t = s ∨ (∃ k, t = s.raise k) ∨ t = { s with seq := .terminated, fail := false, err := 0#4 } := by
  obtain ⟨-, rfl⟩ | ⟨-, herror⟩ | ⟨-, hbody⟩ := asOperation_next h
  · exact .inl rfl
  · exact .inr (.inl herror)
  · cases hbody
    exact .inr (.inr rfl)

/-- Settles O14: the bound N_MAX decides in AWAITING_COUNT, the class check later. -/
theorem countMakesTheRegisterFile : Obligations.CountMakesTheRegisterFile := by
  intro n s
  refine ⟨fun hq hn => ?_, fun hq hn => ?_, fun hq => ?_, fun hq => ?_⟩
  · rw [exec_cnt_awaitingCount hq, countBody_of_le hn, attempt_ok]
  · rw [exec_cnt_awaitingCount hq, countBody_of_lt hn, attempt_error]
    rfl
  · exact exec_refused_initializing hq (by simp [classOf])
  · exact exec_refused_executing hq (by simp [classOf])

/-- Settles O31: the slots are read one by one in index order. -/
theorem dumpPrintsEverySlot : Obligations.DumpPrintsEverySlot :=
  fun _ _ => exec_dump_executing

/-- STATUS after the end with success (46_control.md R152). -/
theorem success_statusWord (s : State) :
    ({ s with seq := .terminated, fail := false, err := 0#4 } : State).statusWord = 0x00000003#32 := by
  change (0#24 ++ 0#4 ++ 0#1 ++ BitVec.ofBool false ++ Seq.code .terminated : BitVec 32) = 3#32
  decide

/-- Settles O32: END runs in EXECUTING only, as every operation does. -/
theorem endSucceeds : Obligations.EndSucceeds := by
  intro s
  refine ⟨fun hq => ⟨exec_endSession_executing hq, success_statusWord s⟩, fun hq => ?_, fun hq => ?_⟩
  · exact exec_refused_awaitingCount hq (by simp [classOf])
  · exact exec_refused_initializing hq (by simp [classOf])

/-- Settles O36: each of the three does nothing, takes an error or has its body's effect. -/
theorem sessionCommandFrame : Obligations.SessionCommandFrame := by
  refine fun n s t => ⟨fun h => ?_, fun h => ?_, fun h => ?_⟩
  · obtain rfl | ⟨k, rfl⟩ | rfl := exec_cnt_next h
    · exact ⟨rfl, rfl, rfl, .inl ⟨rfl, rfl⟩⟩
    · exact ⟨rfl, rfl, rfl, .inr ⟨rfl, rfl, rfl, rfl, rfl⟩⟩
    · exact ⟨rfl, rfl, rfl, .inl ⟨rfl, rfl⟩⟩
  · obtain rfl | ⟨k, rfl⟩ | ⟨ls, rfl⟩ := exec_dump_next h
    · exact ⟨rfl, rfl, rfl, rfl, rfl, .inl ⟨rfl, rfl, rfl⟩⟩
    · exact ⟨rfl, rfl, rfl, rfl, rfl, .inr ⟨rfl, rfl, rfl⟩⟩
    · exact ⟨rfl, rfl, rfl, rfl, rfl, .inl ⟨rfl, rfl, rfl⟩⟩
  · obtain rfl | ⟨k, rfl⟩ | rfl := exec_endSession_next h
    · exact ⟨rfl, rfl, rfl, rfl, rfl, rfl⟩
    · exact ⟨rfl, rfl, rfl, rfl, rfl, rfl⟩
    · exact ⟨rfl, rfl, rfl, rfl, rfl, rfl⟩

end Sys2Proof.Machine
end

section
/-! SUPPORT. What a step takes from the deliveries: one event, and with it a number of words or lines from the front
of the first delivery (46_control.md R145). -/

namespace Sys2Proof.Machine

theorem restPort_drop (ws : List Word) (n : Nat) (rest : List Delivery) :
    restPort (ws.drop n) rest = (if ws.length ≤ n then [] else [.port (ws.drop n)]) ++ rest := by
  simp only [restPort_eq, List.drop_eq_nil_iff]
  split <;> rfl

theorem restText_drop (ls : List Line) (n : Nat) (rest : List Delivery) :
    restText (ls.drop n) rest = (if ls.length ≤ n then [] else [.text (ls.drop n)]) ++ rest := by
  simp only [restText_eq, List.drop_eq_nil_iff]
  split <;> rfl

theorem eventWords_pos_of_ne_nil {ws : List Word} (hne : ws ≠ []) : 0 < eventWords ws := by
  obtain ⟨h, ps, rfl⟩ := List.exists_cons_of_ne_nil hne
  exact eventWords_pos h ps

/-- A text event takes at most two lines, and at least one where there is one (30_encoding.md R57). -/
theorem textEvent_takes (seq : Seq) (ls : List Line) :
    ∃ n, n ≤ 2 ∧ (ls ≠ [] → 0 < n) ∧ (textEvent seq ls).2 = ls.drop n := by
  cases ls with
  | nil => exact ⟨0, by simp, by simp, rfl⟩
  | cons l rest =>
    obtain hone | htwo := textEvent_rest seq l rest
    · exact ⟨1, by simp, by simp, hone⟩
    · exact ⟨2, by simp, by simp, htwo⟩

/-- Settles O46: `fetch` finds one event in each kind of delivery that is no reset. -/
theorem coreStepsOnlyOnHostEvents : Obligations.CoreStepsOnlyOnHostEvents := by
  refine ⟨fun s hin => by rw [step, hin, fetch_nil], fun s d rest hin hd => ?_⟩
  cases d with
  | reset => exact absurd rfl hd
  | event ev =>
    have hfetch : fetch s.seq s.inbox = .event ev rest := by rw [hin, fetch_event]
    refine ⟨ev, rest, hfetch, (step_of_fetch hfetch).2, fun e he => ?_, by simp, by simp⟩
    cases he
    exact ⟨rfl, rfl⟩
  | port ws =>
    have hfetch : fetch s.seq s.inbox = .event (decode ws) (restPort (afterEvent ws) rest) := by
      rw [hin, fetch_port]
    refine ⟨_, _, hfetch, (step_of_fetch hfetch).2, by simp, fun ws' hws => ?_, by simp⟩
    cases hws
    exact ⟨rfl, restPort_drop ws _ rest, eventWords_pos_of_ne_nil⟩
  | text ls =>
    have hfetch : fetch s.seq s.inbox =
        .event (textEvent s.seq ls).1 (restText (textEvent s.seq ls).2 rest) := by
      rw [hin, fetch_text]
    refine ⟨_, _, hfetch, (step_of_fetch hfetch).2, by simp, by simp, fun ls' hls => ?_⟩
    cases hls
    obtain ⟨n, hle, hpos, hleft⟩ := textEvent_takes s.seq ls
    exact ⟨rfl, n, hle, hpos, by rw [hleft, restText_drop]⟩

end Sys2Proof.Machine
end

section
/-! PROOF. Errors (60_exceptions.md): what the host sees of one (R175), that taking it writes nothing else (R170),
and that an index outside `0..N-1` raises its error before any slot is read (R168). -/

namespace Sys2Proof.Machine

variable {s t : State}

/-- STATUS after an error: SEQ and FAIL are the low three bits, the code is bits 7:4 (60_exceptions.md R175). -/
theorem raise_statusWord (k : ErrorKind) (s : State) :
    (s.raise k).statusWord = 0x00000007#32 ||| (k.code.setWidth 32 <<< 4) := by
  have hfields : ∀ code : BitVec 4, (0#24 ++ code ++ 0#1 ++ BitVec.ofBool true ++ Seq.code .terminated : BitVec 32) =
      0x00000007#32 ||| (code.setWidth 32 <<< 4) := by decide
  exact hfields k.code

/-- Settles O12: the nine words are the one formula at the nine codes. -/
theorem statusOfAnError : Obligations.StatusOfAnError := fun k s =>
  ⟨raise_statusWord k s, rfl, rfl, rfl, raise_statusWord .malformedCount s, raise_statusWord .unknownInitializer s,
    raise_statusWord .unknownOperation s, raise_statusWord .truncatedInput s, raise_statusWord .invalidHexDigits s,
    raise_statusWord .indexOutOfRange s, raise_statusWord .uninitializedRegister s,
    raise_statusWord .capacityExceeded s, raise_statusWord .malformedArgument s⟩

/-- No effect but an error sets FAIL (60_exceptions.md R170). -/
theorem Effect.eq_raise_of_fail (he : Effect s t) (hs : s.fail = false) (ht : t.fail = true) :
    ∃ k, t = s.raise k := by
  have hkept (hfail : t.fail = s.fail) : ∃ k, t = s.raise k := by simp [hfail, hs] at ht
  cases he with
  | nothing _ => exact hkept rfl
  | error k => exact ⟨k, rfl⟩
  | counted n hq hb => obtain ⟨-, rfl⟩ := countBody_ok hb; exact hkept rfl
  | filled hq hf =>
    obtain ⟨-, -, -, -, -, hfail, -⟩ := hf.frame
    exact hkept hfail
  | stored rd hq hst =>
    obtain ⟨-, -, -, -, -, -, -, hfail, -⟩ := hst.frame
    exact hkept hfail
  | printed ls hq hls => exact hkept rfl
  | finished _ => cases ht

/-- Settles O11: the event's effect is an error, which leaves the sequencer in TERMINATED. -/
theorem errorsWriteNothingElse : Obligations.ErrorsWriteNothingElse := by
  intro ev s t hs hdeliver ht
  obtain ⟨k, rfl⟩ := (deliver_effect hdeliver).eq_raise_of_fail hs ht
  obtain ⟨hpos, hle⟩ := k.code_bounds
  exact ⟨hpos, hle, rfl, deliver_terminated rfl⟩

/-- The index is outside `0..N-1` (60_exceptions.md R168). -/
abbrev State.IndexOut (s : State) (i : Int) : Prop := i < 0 ∨ (s.count : Int) ≤ i

/-- An index check in front raises IndexOutOfRange where its own index is out of range, and where what follows
raises it for every index that passes. -/
theorem checkIndex_bind_of_out {α : Type} {i : Int} {next : Nat → Except ErrorKind α}
    (h : s.IndexOut i ∨ ∀ n, next n = .error .indexOutOfRange) :
    (s.checkIndex i >>= next) = .error .indexOutOfRange := by
  by_cases hi : s.IndexOut i
  · rw [checkIndex_of_out hi]
    rfl
  · have hin : s.checkIndex i = .ok i.toNat := checkIndex_of_lt (by omega) (by omega)
    rw [hin]
    exact h.resolve_left hi i.toNat

/-- The checks of `rd` and `rs1` in front of a read (60_exceptions.md R168, R171). -/
theorem two_checkIndex_bind_of_out {α : Type} {rd rs1 : Int} (h : s.IndexOut rd ∨ s.IndexOut rs1)
    (next : Nat → Nat → Except ErrorKind α) :
    (s.checkIndex rd >>= fun d => s.checkIndex rs1 >>= next d) = .error .indexOutOfRange :=
  checkIndex_bind_of_out (h.imp_right fun hrs1 _ => checkIndex_bind_of_out (.inl hrs1))

theorem operate1_of_out {rd rs1 : Int} (h : s.IndexOut rd ∨ s.IndexOut rs1) (f : Value → Value) :
    s.operate1 rd rs1 f = .error .indexOutOfRange :=
  two_checkIndex_bind_of_out h _

theorem operate2_of_out {rd rs1 rs2 : Int} (h : s.IndexOut rd ∨ s.IndexOut rs1 ∨ s.IndexOut rs2)
    (f : Value → Value → Value) : s.operate2 rd rs1 rs2 f = .error .indexOutOfRange :=
  checkIndex_bind_of_out (h.imp_right fun hsources _ => two_checkIndex_bind_of_out hsources _)

theorem shlBody_of_out {rd rs1 : Int} (h : s.IndexOut rd ∨ s.IndexOut rs1) (k : Word) :
    shlBody rd rs1 k s = .error .indexOutOfRange :=
  two_checkIndex_bind_of_out h _

/-- Both indices are checked in both SMUL_SOURCE modes (44_multiply.md R120). -/
theorem mulUint64Body_of_out {rd rs1 : Int} (h : s.IndexOut rd ∨ s.IndexOut rs1) (k : Word) :
    mulUint64Body rd rs1 k s = .error .indexOutOfRange :=
  two_checkIndex_bind_of_out h _

/-- An operation in EXECUTING takes the error of its body (46_control.md R147, 60_exceptions.md R170). -/
theorem exec_operation_of_error (i : Instr) {e : ErrorKind} (hq : s.seq = .executing)
    (hi : classOf i = .operation) (hbody : bodyOf i s = .error e) : exec i s = .next (s.raise e) := by
  rw [exec_eq_check, hi, CommandClass.check, asOperation_executing hq, hbody, attempt_error]

/-- Settles O13: the index checks come first in every body, so that each body is the error. -/
theorem indexOutOfRangeComesFirst : Obligations.IndexOutOfRangeComesFirst := by
  intro s rd rs1 rs2 k
  refine ⟨fun hq => ⟨fun hout => ⟨?_, ?_, ?_⟩, fun hout => ⟨?_, ?_⟩⟩, exec_clone_of_out⟩
  · exact exec_operation_of_error (.shl rd rs1 k) hq rfl (shlBody_of_out hout k)
  · exact exec_operation_of_error (.mulUint64 rd rs1 k) hq rfl (mulUint64Body_of_out hout k)
  · exact exec_operation_of_error (.pow rd rs1 k) hq rfl (operate1_of_out hout _)
  · exact exec_operation_of_error (.add rd rs1 rs2) hq rfl (operate2_of_out hout addValues)
  · exact exec_operation_of_error (.mul rd rs1 rs2) hq rfl (operate2_of_out hout mulValues)

end Sys2Proof.Machine
end

section
/-! SUPPORT. Bodies of commands run side by side in two states: how the agreement of their steps gives the
agreement of the whole (70_reset_and_hazards.md R190). -/

namespace Sys2Proof.Machine

/-- Two computations agree: they make related results or raise the same error, unless one of them runs out of
capacity, after which nothing is claimed. -/
inductive AgreeInCapacity {α β : Type} (R : α → β → Prop) : Except ErrorKind α → Except ErrorKind β → Prop where
  | made {a : α} {b : β} : R a b → AgreeInCapacity R (.ok a) (.ok b)
  | raised (k : ErrorKind) : AgreeInCapacity R (.error k) (.error k)
  | leftFull (y : Except ErrorKind β) : AgreeInCapacity R (.error .capacityExceeded) y
  | rightFull (x : Except ErrorKind α) : AgreeInCapacity R x (.error .capacityExceeded)

theorem AgreeInCapacity.of_eq {α : Type} {x y : Except ErrorKind α} (h : x = y) : AgreeInCapacity Eq x y := by
  subst h
  cases x with
  | ok a => exact .made rfl
  | error k => exact .raised k

/-- Agreement goes through sequencing: it is enough that what follows agrees on related results. -/
theorem AgreeInCapacity.bind {α β γ δ : Type} {R : α → β → Prop} {Q : γ → δ → Prop} {x : Except ErrorKind α}
    {y : Except ErrorKind β} {f : α → Except ErrorKind γ} {g : β → Except ErrorKind δ}
    (h : AgreeInCapacity R x y) (hfg : ∀ a b, R a b → AgreeInCapacity Q (f a) (g b)) :
    AgreeInCapacity Q (x >>= f) (y >>= g) := by
  cases h with
  | made hab => exact hfg _ _ hab
  | raised k => exact .raised k
  | leftFull y => exact .leftFull _
  | rightFull x => exact .rightFull _

end Sys2Proof.Machine
end

section
/-! SUPPORT. What two states that differ in the lengths of their Values still share: slots of the same numbers
(70_reset_and_hazards.md R190). -/

namespace Sys2Proof.Machine

variable {s t : State}

/-- Two Values of the same number: `slotsAgree` where both slots hold a Value. -/
def ValuesAgree (v w : Value) : Prop := slotsAgree (some v) (some w)

theorem ValuesAgree.of_val_eq {v w : Value} (hv : v ≠ []) (hw : w ≠ []) (h : Value.val v = Value.val w) :
    ValuesAgree v w := ⟨hv, hw, h⟩

theorem ValuesAgree.refl {v : Value} (hv : v ≠ []) : ValuesAgree v v := .of_val_eq hv hv rfl

/-- The text form shows the number only (40_canonicalization.md R84). -/
theorem ValuesAgree.textOf_eq {v w : Value} (h : ValuesAgree v w) : textOf v = textOf w := by
  obtain ⟨hv, hw, hval⟩ := h
  rw [textOf_eq_iff_canon_eq, canon_eq_minrep hv, canon_eq_minrep hw, hval]

theorem forall₂_slotsAgree_getElem? {l m : List (Option Value)} (h : List.Forall₂ slotsAgree l m) (i : Nat) :
    slotsAgree (l[i]?).join (m[i]?).join := by
  induction h generalizing i with
  | nil => exact trivial
  | cons hd _ ih =>
    cases i with
    | zero => exact hd
    | succ i => exact ih i

theorem forall₂_slotsAgree_set {l m : List (Option Value)} (h : List.Forall₂ slotsAgree l m) (i : Nat)
    {v w : Value} (hvw : ValuesAgree v w) : List.Forall₂ slotsAgree (l.set i (some v)) (m.set i (some w)) := by
  induction h generalizing i with
  | nil => exact .nil
  | cons hd htl ih =>
    cases i with
    | zero => exact .cons hvw htl
    | succ i => exact .cons hd (ih i)

theorem forall₂_slotsAgree_replicate_none (n : Nat) :
    List.Forall₂ slotsAgree (List.replicate n none) (List.replicate n none) := by
  refine List.forall₂_same.mpr fun o ho => ?_
  rw [List.eq_of_mem_replicate ho]
  exact trivial

theorem SameNumbers.count_eq (h : SameNumbers s t) : s.count = t.count := congrArg BitVec.toNat h.nreg

/-! The updates keep the agreement. -/

theorem SameNumbers.raise (h : SameNumbers s t) (k : ErrorKind) : SameNumbers (s.raise k) (t.raise k) :=
  { h with seq := rfl, fail := rfl, err := rfl }

theorem SameNumbers.writeSlot (h : SameNumbers s t) (d : Nat) {v w : Value} (hvw : ValuesAgree v w) :
    SameNumbers (s.writeSlot d v) (t.writeSlot d w) :=
  { h with regs := forall₂_slotsAgree_set h.regs d hvw }

theorem SameNumbers.advance (h : SameNumbers s t) : SameNumbers s.advance t.advance :=
  { h with
    iptr := by simp only [State.advance_iptr, h.iptr]
    seq := by simp only [State.advance_seq, h.iptr, h.nreg, h.seq] }

theorem SameNumbers.initSlot (h : SameNumbers s t) {v w : Value} (hvw : ValuesAgree v w) :
    SameNumbers (s.initSlot v) (t.initSlot w) := by
  unfold State.initSlot
  rw [h.iptr]
  exact (h.writeSlot _ hvw).advance

theorem SameNumbers.emit (h : SameNumbers s t) (ls : List Line) : SameNumbers (s.emit ls) (t.emit ls) :=
  { h with out := congrArg (· ++ ls) h.out }

/-! The shared operations agree. -/

theorem SameNumbers.checkIndex_agree (h : SameNumbers s t) (i : Int) :
    AgreeInCapacity Eq (s.checkIndex i) (t.checkIndex i) := by
  refine .of_eq ?_
  rw [State.checkIndex, State.checkIndex, h.count_eq]

theorem SameNumbers.readSlot_agree (h : SameNumbers s t) (i : Nat) :
    AgreeInCapacity ValuesAgree (s.readSlot i) (t.readSlot i) := by
  have hslot : slotsAgree (s.slot i) (t.slot i) := forall₂_slotsAgree_getElem? h.regs i
  unfold State.readSlot
  cases hs : s.slot i with
  | none =>
    cases ht : t.slot i with
    | none => exact .raised _
    | some w => rw [hs, ht] at hslot; exact hslot.elim
  | some v =>
    cases ht : t.slot i with
    | none => rw [hs, ht] at hslot; exact hslot.elim
    | some w => rw [hs, ht] at hslot; exact .made hslot

theorem checkCapacity_agree (v w : Value) :
    AgreeInCapacity Eq (s.checkCapacity v) (t.checkCapacity w) := by
  unfold State.checkCapacity
  split
  · exact .leftFull _
  · split
    · exact .rightFull _
    · exact .made rfl

theorem SameNumbers.storeResult_agree (h : SameNumbers s t) (d : Nat) {v w : Value} (hvw : ValuesAgree v w) :
    AgreeInCapacity SameNumbers (s.storeResult d v) (t.storeResult d w) :=
  (checkCapacity_agree v w).bind fun _ _ _ => .made (h.writeSlot d hvw)

theorem SameNumbers.operate1_agree (h : SameNumbers s t) (rd rs1 : Int) {f g : Value → Value}
    (hfg : ∀ a b, ValuesAgree a b → ValuesAgree (f a) (g b)) :
    AgreeInCapacity SameNumbers (s.operate1 rd rs1 f) (t.operate1 rd rs1 g) := by
  refine (h.checkIndex_agree rd).bind fun d _ hd => (h.checkIndex_agree rs1).bind fun i _ hi => ?_
  subst hd hi
  exact (h.readSlot_agree i).bind fun a b hab => h.storeResult_agree d (hfg a b hab)

theorem SameNumbers.operate2_agree (h : SameNumbers s t) (rd rs1 rs2 : Int) {f : Value → Value → Value}
    (hf : ∀ a b a' b', ValuesAgree a a' → ValuesAgree b b' → ValuesAgree (f a b) (f a' b')) :
    AgreeInCapacity SameNumbers (s.operate2 rd rs1 rs2 f) (t.operate2 rd rs1 rs2 f) := by
  refine (h.checkIndex_agree rd).bind fun d _ hd => (h.checkIndex_agree rs1).bind fun i _ hi =>
    (h.checkIndex_agree rs2).bind fun j _ hj => ?_
  subst hd hi hj
  exact (h.readSlot_agree i).bind fun a a' ha => (h.readSlot_agree j).bind fun b b' hb =>
    h.storeResult_agree d (hf a b a' b' ha hb)

end Sys2Proof.Machine
end

section
/-! PROOF. Lengths of Values show only through SHL (70_reset_and_hazards.md R190). -/

namespace Sys2Proof.Machine

variable {s t : State}

/-! What the digit functions make of Values of the same numbers. -/

/-- The sum denotes the sum of the numbers, with the carry out of the top or without it (43_add.md R111). -/
theorem val_addValues (a b : Value) : Value.val (addValues a b) = Value.val a + Value.val b := by
  have ha := Value.val_lt_of_length_le (le_max_left a.length b.length)
  have hb := Value.val_lt_of_length_le (le_max_right a.length b.length)
  rw [addValues_eq_rep]
  split
  · rw [Value.val_rep, Nat.mod_eq_of_lt (by rw [Nat.pow_succ]; omega)]
  · rw [Value.val_rep, Nat.mod_eq_of_lt (by omega)]

theorem addValues_agree {a b a' b' : Value} (ha : ValuesAgree a a') (hb : ValuesAgree b b') :
    ValuesAgree (addValues a b) (addValues a' b') := by
  obtain ⟨hne, hne', hval⟩ := ha
  obtain ⟨-, -, hval'⟩ := hb
  refine .of_val_eq (addValues_ne_nil hne b) (addValues_ne_nil hne' b') ?_
  rw [val_addValues, val_addValues, hval, hval']

theorem mulValues_agree {a b a' b' : Value} (ha : ValuesAgree a a') (hb : ValuesAgree b b') :
    ValuesAgree (mulValues a b) (mulValues a' b') := by
  obtain ⟨hne, hne', hval⟩ := ha
  obtain ⟨-, -, hval'⟩ := hb
  rw [mulValues_eq_minrep hne, mulValues_eq_minrep hne', hval, hval']
  exact .refl (minrep_ne_nil _)

/-- The product denotes the same number trimmed or not (44_multiply.md R121). -/
theorem scalarProduct_agree {a b : Value} (h : ValuesAgree a b) (c c' : Bool) (k : Word) :
    ValuesAgree (scalarProduct c a k.toNat) (scalarProduct c' b k.toNat) := by
  obtain ⟨-, -, hval⟩ := h
  refine .of_val_eq (scalarProduct_ne_nil c a _) (scalarProduct_ne_nil c' b _) ?_
  rw [val_scalarProduct c a k.isLt, val_scalarProduct c' b k.isLt, hval]

theorem power_agree {a b : Value} (h : ValuesAgree a b) (mode : PowMode) (k : Nat) :
    ValuesAgree (power mode a k) (power mode b k) := by
  obtain rfl | rfl | hk : k = 0 ∨ k = 1 ∨ 2 ≤ k := by omega
  · exact .refl (List.cons_ne_nil _ _)
  · exact h
  · obtain ⟨-, -, hval⟩ := h
    cases mode with
    | binary => rw [power_binary a hk, power_binary b hk, hval]; exact .refl (minrep_ne_nil _)
    | squareOnly => rw [power_squareOnly a hk, power_squareOnly b hk, hval]; exact .refl (minrep_ne_nil _)

/-- The string spells one number, trimmed or not (41_construction.md R91). -/
theorem hexValue_agree {str : List Char8} (hne : str ≠ []) (c c' : Bool) :
    ValuesAgree (hexValue c str) (hexValue c' str) := by
  have hval (c : Bool) : Value.val (hexValue c str) = Value.val (hexPairs (padHex str)) := by
    rw [← val_canon, canon_hexValue, val_canon]
  exact .of_val_eq (hexValue_ne_nil c hne) (hexValue_ne_nil c' hne) ((hval c).trans (hval c').symm)

/-! The bodies that are no operations on one or two sources. -/

theorem SameNumbers.countBody_agree (h : SameNumbers s t) (n : Nat) :
    AgreeInCapacity SameNumbers (countBody n s) (countBody n t) := by
  by_cases hs : s.cfg.nMax.val < n
  · rw [countBody_of_lt hs]; exact .leftFull _
  by_cases ht : t.cfg.nMax.val < n
  · rw [countBody_of_lt ht]; exact .rightFull _
  rw [countBody_of_le (Nat.le_of_not_lt hs), countBody_of_le (Nat.le_of_not_lt ht)]
  exact .made { h with
    seq := rfl
    nreg := rfl
    iptr := rfl
    regs := forall₂_slotsAgree_replicate_none n }

theorem SameNumbers.hexBody_agree (h : SameNumbers s t) (str : List Char8) :
    AgreeInCapacity SameNumbers (hexBody str s) (hexBody str t) := by
  unfold hexBody
  split
  · exact .raised _
  case isFalse hvalid =>
    have hne : str ≠ [] := fun he => hvalid (.inl (List.length_eq_zero_iff.mpr he))
    exact (checkCapacity_agree _ _).bind fun _ _ _ => .made (h.initSlot (hexValue_agree hne _ _))

theorem SameNumbers.cloneBody_agree (h : SameNumbers s t) (j : Int) :
    AgreeInCapacity SameNumbers (cloneBody j s) (cloneBody j t) := by
  refine (h.checkIndex_agree j).bind fun i _ hi => ?_
  subst hi
  exact (h.readSlot_agree i).bind fun v w hvw => .made (h.initSlot hvw)

/-- The multiplicand's slot depends on SMUL_SOURCE, in which the two states agree (44_multiply.md R123). -/
theorem SameNumbers.mulUint64Body_agree (h : SameNumbers s t) (rd rs1 : Int) (k : Word) :
    AgreeInCapacity SameNumbers (mulUint64Body rd rs1 k s) (mulUint64Body rd rs1 k t) := by
  unfold mulUint64Body
  rw [h.smulSource]
  refine (h.checkIndex_agree rd).bind fun d _ hd => (h.checkIndex_agree rs1).bind fun i _ hi => ?_
  subst hd hi
  exact (h.readSlot_agree _).bind fun a b hab => h.storeResult_agree d (scalarProduct_agree hab _ _ k)

theorem SameNumbers.linesFrom_agree (h : SameNumbers s t) (m i : Nat) :
    AgreeInCapacity Eq (s.linesFrom m i) (t.linesFrom m i) := by
  induction m generalizing i with
  | zero => exact .made rfl
  | succ m ih =>
    refine (h.readSlot_agree i).bind fun v w hvw => (ih (i + 1)).bind fun ls _ hls => ?_
    subst hls
    rw [hvw.textOf_eq]
    exact .made rfl

theorem SameNumbers.dumpBody_agree (h : SameNumbers s t) : AgreeInCapacity SameNumbers (dumpBody s) (dumpBody t) := by
  unfold dumpBody
  rw [h.count_eq]
  refine (h.linesFrom_agree t.count 0).bind fun ls _ hls => ?_
  subst hls
  exact .made (h.emit ls)

theorem SameNumbers.endBody_agree (h : SameNumbers s t) : AgreeInCapacity SameNumbers (endBody s) (endBody t) :=
  .made { h with seq := rfl, fail := rfl, err := rfl }

/-- Every body but SHL's: none other makes digits that depend on a length. -/
theorem SameNumbers.bodyOf_agree (h : SameNumbers s t) (i : Instr) (hi : ∀ rd rs1 k, i ≠ .shl rd rs1 k) :
    AgreeInCapacity SameNumbers (bodyOf i s) (bodyOf i t) := by
  cases i with
  | cnt n => exact h.countBody_agree n
  | uint64 v => exact .made (h.initSlot (.refl (minrep_ne_nil _)))
  | hexString str => exact h.hexBody_agree str
  | clone j => exact h.cloneBody_agree j
  | shl rd rs1 k => exact absurd rfl (hi rd rs1 k)
  | add rd rs1 rs2 => exact h.operate2_agree rd rs1 rs2 fun _ _ _ _ => addValues_agree
  | mulUint64 rd rs1 k => exact h.mulUint64Body_agree rd rs1 k
  | mul rd rs1 rs2 => exact h.operate2_agree rd rs1 rs2 fun _ _ _ _ => mulValues_agree
  | pow rd rs1 k =>
    refine h.operate1_agree rd rs1 fun a b hab => ?_
    rw [h.powMode]
    exact power_agree hab _ _
  | dump => exact h.dumpBody_agree
  | endSession => exact h.endBody_agree

/-- For each command the sequencer state alone decides whether it runs its body, is refused, or has no effect
(46_control.md R147, R153). -/
theorem exec_by_seq (i : Instr) (q : Seq) :
    (∀ s : State, s.seq = q → exec i s = attempt s (bodyOf i s)) ∨
    (∃ k, ∀ s : State, s.seq = q → exec i s = .next (s.raise k)) ∨
    (∀ s : State, s.seq = q → exec i s = .next s) := by
  cases q with
  | awaitingCount =>
    by_cases hc : classOf i = .count
    · exact .inl fun s hq => by rw [exec_eq_check, hc]; exact asCount_awaitingCount hq _
    · exact .inr (.inl ⟨_, fun s hq => exec_refused_awaitingCount hq hc⟩)
  | initializing =>
    by_cases hc : classOf i = .initializer
    · exact .inl fun s hq => by rw [exec_eq_check, hc]; exact asInitializer_initializing hq _
    · exact .inr (.inl ⟨_, fun s hq => exec_refused_initializing hq hc⟩)
  | executing =>
    by_cases hc : classOf i = .operation
    · exact .inl fun s hq => by rw [exec_eq_check, hc]; exact asOperation_executing hq _
    · exact .inr (.inl ⟨_, fun s hq => exec_refused_executing hq hc⟩)
  | terminated => exact .inr (.inr fun s hq => exec_terminated hq i)

/-- Bodies that agree give states that agree, where neither took CapacityExceeded, whose code is 8. -/
theorem SameNumbers.of_attempt (h : SameNumbers s t) {x y : Except ErrorKind State} {s' t' : State}
    (hxy : AgreeInCapacity SameNumbers x y) (hs : attempt s x = .next s') (ht : attempt t y = .next t')
    (hserr : s'.err ≠ 8#4) (hterr : t'.err ≠ 8#4) : SameNumbers s' t' := by
  cases hxy with
  | made hab => cases hs; cases ht; exact hab
  | raised k => cases hs; cases ht; exact h.raise k
  | leftFull y => cases hs; exact absurd rfl hserr
  | rightFull x => cases ht; exact absurd rfl hterr

/-- Settles O30: every body but SHL's agrees in two states of the same numbers, and so do the refusals. -/
theorem lengthsShowOnlyThroughShift : Obligations.LengthsShowOnlyThroughShift := by
  intro i s t s' t' h hi hs ht hserr hterr
  obtain hrun | ⟨k, hrefused⟩ | hnothing := exec_by_seq i t.seq
  · rw [hrun s h.seq] at hs
    rw [hrun t rfl] at ht
    exact h.of_attempt (h.bodyOf_agree i hi) hs ht hserr hterr
  · cases hs.symm.trans (hrefused s h.seq)
    cases ht.symm.trans (hrefused t rfl)
    exact h.raise k
  · cases hs.symm.trans (hnothing s h.seq)
    cases ht.symm.trans (hnothing t rfl)
    exact h

end Sys2Proof.Machine
end

section
/-! PROOF. Reset by the host, and reset as the only way out of TERMINATED (70_reset_and_hazards.md R185). -/

namespace Sys2Proof.Machine

/-- Settles O2: the reset state is written field by field, and in TERMINATED every step without reset only takes a
delivery. -/
theorem hostResetStartsANewSession : Obligations.HostResetStartsANewSession := by
  refine ⟨fun _ => rfl, rfl, fun s rest => step_reset, fun s t hq hreset ht => ?_⟩
  obtain ⟨ds, hstep⟩ := step_terminated hq hreset
  cases ht.symm.trans hstep
  exact hq

end Sys2Proof.Machine
end

section
/-! PROOF. A destination that is a source gets the Value another slot gets: the destination of an operation decides
only where the result goes (70_reset_and_hazards.md R189, 00_scope.md R10). -/

namespace Sys2Proof.Machine

variable {s : State}

/-- What the operation makes, a Value or an error, is one for every destination of the register file, and the
destination gets it. -/
def State.ResultIsOne (s : State) (op : Nat → Except ErrorKind State) : Prop :=
  ∃ r : Except ErrorKind Value, ∀ rd, rd < s.count → op rd = r.map (s.writeSlot rd)

theorem resultIsOne_writeSlot (v : Value) : s.ResultIsOne fun rd => .ok (s.writeSlot rd v) :=
  ⟨.ok v, fun _ _ => rfl⟩

/-- The capacity check looks at the result only (10_state.md R23). -/
theorem resultIsOne_storeResult (v : Value) : s.ResultIsOne fun rd => s.storeResult rd v := by
  by_cases hcap : s.cfg.lMax < v.length
  · exact ⟨.error .capacityExceeded, fun rd _ => (storeResult_eq rd v).trans (if_pos hcap)⟩
  · exact ⟨.ok v, fun rd _ => (storeResult_eq rd v).trans (if_neg hcap)⟩

/-- What comes first without a look at the destination does not make the result depend on it. -/
theorem resultIsOne_bind {α : Type} (x : Except ErrorKind α) {op : α → Nat → Except ErrorKind State}
    (h : ∀ a, s.ResultIsOne (op a)) : s.ResultIsOne fun rd => x >>= fun a => op a rd := by
  cases x with
  | error k => exact ⟨.error k, fun _ _ => rfl⟩
  | ok a => exact h a

/-- Every destination of the register file passes its index check (60_exceptions.md R168). -/
theorem resultIsOne_checkIndex {op : Nat → Except ErrorKind State} (h : s.ResultIsOne op) :
    s.ResultIsOne fun rd => s.checkIndex rd >>= op := by
  obtain ⟨r, hr⟩ := h
  refine ⟨r, fun rd hrd => ?_⟩
  have hcheck : s.checkIndex rd = .ok rd := checkIndex_of_lt (by omega) (by omega)
  exact (congrArg (· >>= op) hcheck).trans (hr rd hrd)

theorem resultIsOne_shlBody (rs1 : Int) (k : Word) : s.ResultIsOne fun rd => shlBody rd rs1 k s :=
  resultIsOne_checkIndex <| resultIsOne_bind _ fun _ => resultIsOne_bind _ fun _ => resultIsOne_writeSlot _

theorem resultIsOne_operate1 (rs1 : Int) (f : Value → Value) : s.ResultIsOne fun rd => s.operate1 rd rs1 f :=
  resultIsOne_checkIndex <| resultIsOne_bind _ fun _ => resultIsOne_bind _ fun _ => resultIsOne_storeResult _

theorem resultIsOne_operate2 (rs1 rs2 : Int) (f : Value → Value → Value) :
    s.ResultIsOne fun rd => s.operate2 rd rs1 rs2 f :=
  resultIsOne_checkIndex <| resultIsOne_bind _ fun _ => resultIsOne_bind _ fun _ => resultIsOne_bind _ fun _ =>
    resultIsOne_bind _ fun _ => resultIsOne_storeResult _

/-- Where SMUL_SOURCE is src, MUL_UINT64 does not read its destination (44_multiply.md R123). -/
theorem resultIsOne_mulUint64Body (hsrc : s.cfg.smulSource = .src) (rs1 : Int) (k : Word) :
    s.ResultIsOne fun rd => mulUint64Body rd rs1 k s := by
  simp only [mulUint64Body, hsrc, multiplicandSlot]
  exact resultIsOne_checkIndex <| resultIsOne_bind _ fun _ => resultIsOne_bind _ fun _ => resultIsOne_storeResult _

/-- One result for both destinations gives both runs the same end, and each destination the result. -/
theorem State.ResultIsOne.outcomes_agree {op : Nat → Except ErrorKind State} (hop : s.ResultIsOne op)
    (c : Nat → Instr) (hc : ∀ d, exec (c d) s = asOperation s (op d)) (hinv : s.Inv) (hq : s.seq = .executing)
    {rd rd' : Nat} (hrd : rd < s.count) (hrd' : rd' < s.count) {t u : State}
    (ht : exec (c rd) s = .next t) (hu : exec (c rd') s = .next u) :
    t.seq = u.seq ∧ t.err = u.err ∧ (t.seq = .executing → t.slot rd = u.slot rd') := by
  obtain ⟨r, hr⟩ := hop
  rw [hc, asOperation_executing hq, hr rd hrd] at ht
  rw [hc, asOperation_executing hq, hr rd' hrd'] at hu
  rw [← hinv.regs_length] at hrd hrd'
  cases r with
  | error k =>
    cases ht
    cases hu
    exact ⟨rfl, rfl, by simp⟩
  | ok v =>
    cases ht
    cases hu
    exact ⟨rfl, rfl, fun _ => (s.writeSlot_slot_self hrd v).trans (s.writeSlot_slot_self hrd' v).symm⟩

/-- Settles O29: each of the five bodies looks at its destination only to check the index and to store. -/
theorem aliasedDestinationGetsTheSameValue : Obligations.AliasedDestinationGetsTheSameValue := by
  intro s rd rd' rs1 rs2 k hinv hq hrd hrd' i hi t u ht hu
  rw [List.mem_append] at hi
  obtain hi | hi := hi
  · simp only [List.mem_cons, List.not_mem_nil, or_false] at hi
    obtain rfl | rfl | rfl | rfl := hi
    · exact (resultIsOne_shlBody rs1 k).outcomes_agree (.shl · rs1 k) (fun _ => rfl) hinv hq hrd hrd' ht hu
    · exact (resultIsOne_operate2 rs1 rs2 addValues).outcomes_agree (.add · rs1 rs2) (fun _ => rfl) hinv hq hrd hrd'
        ht hu
    · exact (resultIsOne_operate2 rs1 rs2 mulValues).outcomes_agree (.mul · rs1 rs2) (fun _ => rfl) hinv hq hrd hrd'
        ht hu
    · exact (resultIsOne_operate1 rs1 _).outcomes_agree (.pow · rs1 k) (fun _ => rfl) hinv hq hrd hrd' ht hu
  · split at hi
    case isTrue hsrc =>
      obtain rfl := List.mem_singleton.mp hi
      exact (resultIsOne_mulUint64Body hsrc rs1 k).outcomes_agree (.mulUint64 · rs1 k) (fun _ => rfl) hinv hq hrd hrd'
        ht hu
    case isFalse => exact absurd hi List.not_mem_nil

end Sys2Proof.Machine
end

section
/-! SUPPORT. What an initializer makes, and the slots it depends on (41_construction.md R90 to R93). -/

namespace Sys2Proof

/-- What the slot that an initializer fills comes to hold, by the slots there are: its literal, the Value of its
string, or what the slot it copies holds (41_construction.md R90 to R92). -/
def Instr.initialValue (p : Params) (slot : Nat → Option Value) : Instr → Option Value
  | .uint64 v => some (minrep v.toNat)
  | .hexString str => some (hexStored p.hexCanon str)
  | .clone j => slot j.toNat
  | .cnt _ | .shl _ _ _ | .add _ _ _ | .mulUint64 _ _ _ | .mul _ _ _ | .pow _ _ _ | .dump | .endSession => none

/-- The initializer of a slot depends on the slots below it only (41_construction.md R93). -/
theorem Instr.Initializes.initialValue_congr {p : Params} {i : Nat} {ini : Instr} (hini : ini.Initializes p i)
    {slot slot' : Nat → Option Value} (h : ∀ j, j < i → slot j = slot' j) :
    ini.initialValue p slot = ini.initialValue p slot' := by
  cases ini with
  | clone j =>
    obtain ⟨h0, hj⟩ := hini
    exact h j.toNat (by omega)
  | uint64 | hexString => rfl
  | cnt | shl | add | mulUint64 | mul | pow | dump | endSession => exact hini.elim

end Sys2Proof

namespace Sys2Proof.Machine

variable {s : State}

/-- A command that initializes slot IPTR fills it with its Value (41_construction.md R90 to R93). -/
theorem State.Inv.exec_of_initializes (h : s.Inv) (hq : s.seq = .initializing) {ini : Instr}
    (hini : ini.Initializes s.cfg s.iptr.toNat) :
    ∃ v, ini.initialValue s.cfg s.slot = some v ∧ exec ini s = .next (s.initSlot v) := by
  cases ini with
  | uint64 v => exact ⟨_, rfl, exec_uint64_initializing hq v⟩
  | hexString str =>
    obtain ⟨hne, hall, hcap⟩ := hini
    have hvalue := hexValue_eq_hexStored s.cfg.hexCanon hne hall
    exact ⟨_, congrArg some hvalue.symm, exec_hexString_initializing hq hne hall (hvalue ▸ hcap)⟩
  | clone j =>
    obtain ⟨h0, hj⟩ := hini
    obtain ⟨v, hslot, -⟩ := h.written j.toNat (by omega)
    have hle := h.iptr_le
    exact ⟨v, hslot, exec_clone_of_slot hq h0 (by omega) hslot⟩
  | cnt | shl | add | mulUint64 | mul | pow | dump | endSession => exact hini.elim

/-- A step takes a command that the host has delivered as an event (46_control.md R145). -/
theorem step_of_cmd {c : Instr} {rest : List Delivery} (hin : s.inbox = .event (.cmd c) :: rest) :
    step s = exec c (s.withInbox rest) := by
  have hfetch : fetch s.seq s.inbox = .event (.cmd c) rest := by rw [hin, fetch_event]
  exact (step_of_fetch hfetch).2

/-- A run of one step more starts with that step. -/
theorem core_run_succ {t : State} (h : step s = .next t) (m : Nat) : core.run (m + 1) s = core.run m t := by
  have hcore : core.step s = .next t := h
  simp only [Host.Core.run, hcore]

end Sys2Proof.Machine
end

section
/-! PROOF. The boot: CNT, then one initializer for each slot, leads to EXECUTING (70_reset_and_hazards.md R187). -/

namespace Sys2Proof.Machine

variable {s : State} {p : Params} {inits : List Instr} {k : Nat}

/-- The commands as the host delivers them, one event each. -/
def deliveries (cs : List Instr) : List Delivery := cs.map fun c => .event (.cmd c)

/-- Each command initializes its slot, from slot 0 on. -/
def InitializeSlots (p : Params) (inits : List Instr) : Prop :=
  ∀ (i : Nat) (ini : Instr), inits[i]? = some ini → ini.Initializes p i

/-- The state after CNT and the first `k` initializers: the slots of those are filled, and no others. -/
structure Booted (p : Params) (inits : List Instr) (k : Nat) (s : State) : Prop where
  inv : s.Inv
  cfg : s.cfg = p
  count : s.count = inits.length
  iptr : s.iptr.toNat = k
  seq : s.seq = if k = inits.length then .executing else .initializing
  slots : ∀ (i : Nat) (ini : Instr), i < k → inits[i]? = some ini → s.slot i = ini.initialValue p s.slot

theorem Booted.withInbox (h : Booted p inits k s) (ds : List Delivery) : Booted p inits k (s.withInbox ds) :=
  { h with inv := h.inv.withInbox ds }

/-- CNT at reset makes the slots, none of them filled (46_control.md R148). -/
theorem exec_cnt_booted (hn : inits.length ≤ p.nMax.val) (ds : List Delivery) :
    ∃ t, exec (.cnt inits.length) ((State.resetWith p).withInbox ds) = .next t ∧ t.inbox = ds ∧
      Booted p inits 0 t := by
  have hbody := countBody_of_le (s := (State.resetWith p).withInbox ds) hn
  have hexec := exec_cnt_awaitingCount (s := (State.resetWith p).withInbox ds) rfl inits.length
  rw [hbody, attempt_ok] at hexec
  have hmax := p.nMax.isLt
  refine ⟨_, hexec, rfl, ?_⟩
  exact {
    inv := ((State.resetWith_inv p).withInbox ds).counted rfl hbody
    cfg := rfl
    count := (BitVec.toNat_ofNat _ _).trans (Nat.mod_eq_of_lt (by omega))
    iptr := rfl
    seq := by simp [eq_comm]
    slots := fun i ini hi => absurd hi (Nat.not_lt_zero i) }

/-- The next initializer fills the next slot and leaves what the earlier ones made. -/
theorem Booted.exec_next (h : Booted p inits k s) (hk : k < inits.length) (hinits : InitializeSlots p inits) :
    ∃ v, exec inits[k] s = .next (s.initSlot v) ∧ Booted p inits (k + 1) (s.initSlot v) := by
  have hq : s.seq = .initializing := by rw [h.seq, if_neg (Nat.ne_of_lt hk)]
  have hlt : s.iptr.toNat < s.count := by rw [h.iptr, h.count]; exact hk
  have hini : inits[k].Initializes s.cfg s.iptr.toNat := by
    rw [h.cfg, h.iptr]
    exact hinits k _ (List.getElem?_eq_getElem hk)
  obtain ⟨v, hv, hexec⟩ := h.inv.exec_of_initializes hq hini
  have hself : (s.initSlot v).slot k = some v := by
    rw [← h.iptr]
    exact State.initSlot_slot_self (h.inv.regs_length ▸ hlt) v
  have hother {i : Nat} (hi : i < k) : (s.initSlot v).slot i = s.slot i :=
    State.initSlot_slot_ne (h.iptr ▸ Nat.ne_of_lt hi) v
  have hkept {i : Nat} {ini : Instr} (hi : i ≤ k) (hget : inits[i]? = some ini) :
      ini.initialValue p (s.initSlot v).slot = ini.initialValue p s.slot :=
    (hinits i ini hget).initialValue_congr fun j hj => hother (Nat.lt_of_lt_of_le hj hi)
  refine ⟨v, hexec, ?_⟩
  exact {
    inv := (exec_effect hexec).keeps_inv h.inv
    cfg := h.cfg
    count := h.count
    iptr := (h.inv.iptr_succ_toNat hq).trans (congrArg (· + 1) h.iptr)
    seq := by simp only [State.initSlot_seq, iptr_succ_eq_nreg_iff hlt, hq, h.iptr, h.count]
    slots := fun i ini hi hget => by
      rw [hkept (Nat.le_of_lt_succ hi) hget]
      obtain hi | rfl := Nat.lt_succ_iff_lt_or_eq.mp hi
      · rw [hother hi]
        exact h.slots i ini hi hget
      · rw [List.getElem?_eq_getElem hk, Option.some_inj] at hget
        rw [hself, ← hv, hget, h.cfg] }

/-- The remaining steps take the remaining initializers. -/
theorem Booted.run (hinits : InitializeSlots p inits) (m : Nat) (h : Booted p inits k s)
    (hin : s.inbox = deliveries (inits.drop k)) (hm : k + m = inits.length) :
    ∃ t, core.run m s = .next t ∧ t.inbox = [] ∧ Booted p inits inits.length t := by
  induction m generalizing k s with
  | zero =>
    obtain rfl : k = inits.length := hm
    exact ⟨s, rfl, by rw [hin, List.drop_length]; rfl, h⟩
  | succ m ih =>
    have hk : k < inits.length := by omega
    rw [List.drop_eq_getElem_cons hk] at hin
    obtain ⟨v, hexec, hnext⟩ := (h.withInbox (deliveries (inits.drop (k + 1)))).exec_next hk hinits
    have hstep := (step_of_cmd hin).trans hexec
    obtain ⟨t, hrun, ht⟩ := ih hnext rfl (by omega)
    exact ⟨t, (core_run_succ hstep m).trans hrun, ht⟩

/-- Settles O50: `Booted` holds after CNT, each initializer takes it one slot further, and the invariant says what it
means at the last slot. -/
theorem bootReachesExecuting : Obligations.BootReachesExecuting := by
  intro p inits hn hinits
  obtain ⟨s, hexec, hin, hs⟩ := exec_cnt_booted hn (deliveries inits)
  have hstep : step ((State.resetWith p).withInbox (deliveries (.cnt inits.length :: inits))) = .next s :=
    (step_of_cmd rfl).trans hexec
  obtain ⟨t, hrun, hinbox, ht⟩ := hs.run hinits inits.length hin (Nat.zero_add _)
  have hseq : t.seq = .executing := ht.seq.trans (if_pos rfl)
  have hslot (i : Nat) (ini : Instr) (hget : inits[i]? = some ini) : t.slot i = ini.initialValue p t.slot :=
    ht.slots i ini (List.getElem?_eq_some_iff.mp hget).1 hget
  refine ⟨t, (core_run_succ hstep _).trans hrun, hseq, ht.count, ht.inv.executing hseq, hinbox,
    fun i v => hslot i _, fun i str => hslot i _, fun i j => hslot i _, fun i hi => ?_⟩
  obtain ⟨v, hv, -⟩ := ht.inv.written i (ht.iptr.symm ▸ hi)
  exact ⟨v, hv⟩

end Sys2Proof.Machine
end
